-- ==== Sys2Proof/Word.lean ====
section
/-! DEFINITION. The types of values of 00_scope.md R12 to R16: bytes, 4-byte words, 16-byte blocks, byte sequences.

A byte is what the spec xors, looks up in tables and numbers bit by bit (R13), so it is a bit vector. A word
(R12) is "a sequence of exactly 4 bytes; it is never treated as a 32-bit number", and a block (R16) is 16 bytes in
sequence order, so both are vectors of bytes. A byte sequence of varying length (R12) is a list. -/

namespace Sys2Proof

/-- A byte, R12. -/
abbrev Byte := BitVec 8

/-- A word of the key schedule, R12: exactly 4 bytes, in sequence order (R54). -/
abbrev Word4 := Vector Byte 4

/-- A Block or State, R16: byte `r + 4*c` is the matrix entry at row `r`, column `c`. -/
abbrev Block := Vector Byte 16

/-- Bytewise exclusive-or of two vectors of one length, R12's `s xor t`. -/
def xorV {n : Nat} (s t : Vector Byte n) : Vector Byte n :=
  Vector.ofFn fun j => s[j] ^^^ t[j]

end Sys2Proof
end

