-- ==== Sys2Proof/Syntax.lean ====
section
/-! DEFINITION. The commands of 30_encoding.md R71, one constructor per row of spec/opcode_table.json. -/

namespace Sys2Proof

/-- A command of the engine. There is no operand field: every operand is an implicit register (R70, R72). -/
inductive Instr where
  /-- KEYEXPAND, 0x01: `keyExpand(key)`, 41_key_expansion.md R130. -/
  | keyexpand
  /-- BLKENC, 0x02: `blockEncrypt(block, expandedKey)`, 42_block_cipher.md R152. -/
  | blkenc
  /-- BLKDEC, 0x03: `blockDecrypt(block, expandedKey)`, 42_block_cipher.md R153. -/
  | blkdec
  /-- CBCENC, 0x04: `cbcEncrypt(plaintext, key, iv)`, 44_modes.md R182. -/
  | cbcenc
  /-- CBCDEC, 0x05: `cbcDecrypt(ciphertext, key, iv)`, 44_modes.md R185. -/
  | cbcdec
  /-- CTRCRYPT, 0x06: `ctrDecrypt(data, key, counter)`, 44_modes.md R188. -/
  | ctrcrypt
  /-- CTRNEXT, 0x07: the Counter's "produce current value, then increment", 43_counter.md R173. -/
  | ctrnext
  deriving DecidableEq, Repr

end Sys2Proof
end

