-- ==== Sys2Proof/Decode.lean ====
section
/-! DEFINITION. Command encoding, 30_encoding.md R70 to R74: one byte, the opcode, all eight bits of which count. -/

namespace Sys2Proof

/-- Why a byte is no command. -/
inductive Reject where
  /-- "Opcode 0x00 and opcodes 0x08..0xFF are reserved" (R73). -/
  | reservedOpcode (op : Byte)
  deriving DecidableEq, Repr

/-- The decoder, total on every byte (R74): the opcode map of R71, and everything else reserved (R73). -/
def decode (op : Byte) : Except Reject Instr :=
  match op.toNat with
  | 0x01 => .ok .keyexpand
  | 0x02 => .ok .blkenc
  | 0x03 => .ok .blkdec
  | 0x04 => .ok .cbcenc
  | 0x05 => .ok .cbcdec
  | 0x06 => .ok .ctrcrypt
  | 0x07 => .ok .ctrnext
  | _ => .error (.reservedOpcode op)

/-- The encoder: the "encoding" column of spec/opcode_table.json, bit 7 first. -/
def encode : Instr → Byte
  | .keyexpand => 0b00000001#8
  | .blkenc    => 0b00000010#8
  | .blkdec    => 0b00000011#8
  | .cbcenc    => 0b00000100#8
  | .cbcdec    => 0b00000101#8
  | .ctrcrypt  => 0b00000110#8
  | .ctrnext   => 0b00000111#8

/-- What the decoder reads from a command of `nbits` bits whose value is `w`, bit 0 the least significant. Every command
is exactly one byte long (R70), so any other length is no command. -/
def decodeTableWord (nbits w : Nat) : Option Instr :=
  if nbits = 8 ∧ w < 256 then
    match decode (BitVec.ofNat 8 w) with
    | .ok i => some i
    | .error _ => none
  else none

end Sys2Proof
end

