-- ==== Sys2Proof/Config.lean ====
section
/-! DEFINITION. What one implementation fixes and the spec leaves open, and the free values. Each is a constant with
no body: no proof can see what it is. -/

namespace Sys2Proof.Config

/-- The open parameter MAXLEN of 00_scope.md R9, as its number of 16-byte blocks less one: "a positive multiple of 16
and at most 2^32 - 16" is 16 * (b + 1) with b below 2^28 - 1. The capacity the machine has at reset (log 5). -/
opaque capBlocks : Fin 268435455

/-- Free value (10_state.md R37; 93_implementation_defined.md U1): what byte `index` of the data buffer with register
id `id` holds after the reset number `resets`, until something writes it. "each may hold any value, not necessarily the
same after two resets" (log 6). -/
opaque powerOnByte : (resets : Nat) → (id : Nat) → (index : Nat) → BitVec 8

/-- Free value (93_implementation_defined.md U18): the entry LOG[0], which "does not exist" and no rule reads (log 11). -/
opaque unreadLog : BitVec 8

/-- Free value (93_implementation_defined.md U18): the entries RCON[0] and RCON[11..], which no rule reads (log 11). -/
opaque unreadRcon : (index : Nat) → BitVec 8

end Sys2Proof.Config
end

