-- ==== Sys2Proof/Machine/Galois.lean ====
section
/-! DEFINITION. The GF(2^8) multiplier, 40_gf_and_tables.md R100 to R106: the source's table form, and the bitwise form
of R105. -/

namespace Sys2Proof.Machine

/-- GFMUL(a, b), R102: "returns 0 if either operand is 0; otherwise exp[(log[a] + log[b]) mod 255]". The sum is a natural
number, so it does not wrap at 256. -/
def gfmul (a b : Byte) : Byte :=
  if a = 0 ∨ b = 0 then 0 else expT ((logT a + logT b) % 255)

/-- One pass of R105's loop: `repeat` it as many times as the first argument says, from the accumulator `p`. -/
def gfmulLoop : Nat → Byte → Byte → Byte → Byte
  | 0, p, _, _ => p
  | n + 1, p, a, b =>
    gfmulLoop n (if b.getLsbD 0 then p ^^^ a else p)
      (if a.getLsbD 7 then (a <<< 1) ^^^ 0x1b else a <<< 1) (b >>> 1)

/-- GFMUL_bitwise(a, b), R105: the product of the two polynomials of R100 reduced modulo `x^8 + x^4 + x^3 + x + 1`. -/
def gfmulBitwise (a b : Byte) : Byte := gfmulLoop 8 0 a b

end Sys2Proof.Machine
end

