-- ==== Sys2Proof/Machine/State.lean ====
section
/-! DEFINITION. The state of one engine instance (10_state.md R20, R37), the host's side of it, and the reasons a step can stop. -/

namespace Sys2Proof.Machine

/-- The error causes of 60_exceptions.md R210. They are outcomes of a command recorded in STATUS, after which the
engine goes on (R215): not reasons to stop. -/
inductive Err where
  /-- Code 1: "key length not in {16,24,32}"; for the block commands XKLEN not in {176, 208, 240}. -/
  | invalidKeySize
  /-- Code 2: "a single-block operation given other than exactly 16 bytes". -/
  | invalidBlockSize
  /-- Code 3: "IV not exactly 16 bytes for CBC". -/
  | invalidIvSize
  /-- Code 4: "malformed base64 input to the password-text path". Raised by the host's procedure only, never by a command. -/
  | decodeError
  /-- Code 5: the opcode written to CMD is reserved. -/
  | illegalCommand
  /-- Code 6: `DLEN > MAXLEN`. -/
  | dataTooLong
  deriving DecidableEq, Repr

/-- Faults: none. Every command ends in success or in an error that STATUS reports (00_scope.md R18), so nothing stops the
engine and no one raises a fault (log 21): safe. -/
inductive Fault where
  deriving DecidableEq, Repr

/-- Why the model does not offer a move. All but the first are host actions outside the list of 20_memory.md R56, which
"does not exist: the model gives the host no such move" (93_implementation_defined.md U5). -/
inductive Refusal where
  /-- Raised by the dispatcher alone, for an instruction with no meaning yet: safe. -/
  | notModelled (mnemonic : String)
  /-- Raised by a host action on a register id that names nothing (R50): safe. -/
  | noSuchItem
  /-- Raised by a register write to STATUS or OLEN and a byte write to RES or DOUT, which are read-only (R20): safe. -/
  | notWritable
  /-- Raised by a register read of CMD, which is write only (R29): safe. -/
  | notReadable
  /-- Raised by a register action on a buffer or a byte action on a scalar (R56), whatever the access rights (log 9): safe. -/
  | wrongKind
  /-- Raised by a register write whose value does not fit the scalar's width (R56): safe. -/
  | valueTooWide
  /-- Raised by a byte action at an index at or above the buffer's capacity (R56): safe. -/
  | indexOutOfRange
  deriving DecidableEq, Repr

/-- An input of the machine: one of the host's actions of 20_memory.md R56 (`Issue(op)` is `HostWriteReg(0x00, op)`), or
the platform's reset (70_reset_and_hazards.md R240). Register ids are numbers, so that an id that names nothing can be
presented and refused. -/
inductive HostEvent where
  /-- `HostWriteReg(id, v)`. -/
  | writeReg (id : Nat) (v : Nat)
  /-- `HostReadReg(id)`. -/
  | readReg (id : Nat)
  /-- `HostWriteByte(id, j, b)`. -/
  | writeByte (id : Nat) (j : Nat) (b : Byte)
  /-- `HostReadByte(id, j)`. -/
  | readByte (id : Nat) (j : Nat)
  /-- The platform applies reset. -/
  | reset
  deriving DecidableEq, Repr

/-- What a host read returned (20_memory.md R56): a scalar "as one integer, whole", or one byte of a buffer. -/
inductive HostValue where
  | scalar (v : Nat)
  | byte (b : Byte)
  deriving DecidableEq, Repr

/-- The contents of a data buffer: byte index and byte, indices strictly rising. An index that is not listed has not been
written since reset and holds no value of its own; reading it gives a free value (log 6, log 7). -/
abbrev Memory := List Host.Cell

/-- The complete state. The first fifteen fields are the items of 10_state.md R20 that store something (CMD stores
nothing, R29, R37: log 8); the last five are the model's own. -/
structure State where
  /-- STATUS (R31). -/
  status : BitVec 8
  /-- KEYLEN (R21). -/
  keylen : BitVec 8
  /-- XKLEN (R22). -/
  xklen : BitVec 8
  /-- BLKLEN (R23). -/
  blklen : BitVec 8
  /-- IVLEN (R24). -/
  ivlen : BitVec 8
  /-- DLEN (R27). -/
  dlen : BitVec 32
  /-- OLEN (R28). -/
  olen : BitVec 32
  /-- KEY (R21). -/
  key : Vector Byte 32
  /-- XKEY (R22). -/
  xkey : Vector Byte 240
  /-- BLK (R23). -/
  blk : Block
  /-- IV (R24). -/
  iv : Block
  /-- CTR (R25): `ctr[0]` is the most significant byte. -/
  ctr : Block
  /-- RES (R26). -/
  res : Block
  /-- DIN (R27), `maxLen` bytes. -/
  din : Memory
  /-- DOUT (R28), `maxLen` bytes. -/
  dout : Memory
  /-- The model's: MAXLEN of 00_scope.md R9 as its number of 16-byte blocks less one (log 5). Nothing changes it. -/
  capBlocks : Fin 268435455
  /-- The model's: how many resets have happened, which the free value of an unwritten data byte reads (log 6). -/
  resetCount : Nat
  /-- The model's: host actions and resets not yet performed, oldest first (log 1). -/
  pending : List HostEvent
  /-- The model's: the values the host's reads have returned, oldest first (log 3). -/
  replies : List HostValue
  /-- The model's: every error raised so far, newest first (92_eei_decisions.md D10, log 4). -/
  failures : List Err
  deriving DecidableEq, Repr

/-- MAXLEN, the capacity of DIN and DOUT in bytes: "a positive multiple of 16 and at most 2^32 - 16" (00_scope.md R9). -/
def State.maxLen (s : State) : Nat := 16 * (s.capBlocks.val + 1)

/-- The machine right after reset, 10_state.md R37: every scalar 0, every byte of KEY, XKEY, BLK, IV, CTR and RES 0x00,
the bytes of DIN and DOUT unspecified. The model's own fields are as logs 1, 3, 4, 5 and 6 say. -/
def State.reset : State where
  status := 0
  keylen := 0
  xklen := 0
  blklen := 0
  ivlen := 0
  dlen := 0
  olen := 0
  key := Vector.replicate 32 0
  xkey := Vector.replicate 240 0
  blk := Vector.replicate 16 0
  iv := Vector.replicate 16 0
  ctr := Vector.replicate 16 0
  res := Vector.replicate 16 0
  din := []
  dout := []
  capBlocks := Config.capBlocks
  resetCount := 0
  pending := []
  replies := []
  failures := []

/-- What a meaning and a step answer. -/
abbrev Result := Host.Outcome State Fault Refusal

end Sys2Proof.Machine
end

