-- ==== Sys2Proof/Machine/Flags.lean ====
section
/-! DEFINITION. STATUS and its field ERR (10_state.md R31), and the error codes of 60_exceptions.md R210. "There are no
condition codes, carry or zero flags." -/

namespace Sys2Proof.Machine

/-- The code of an error, R210. -/
def Err.code : Err → BitVec 8
  | .invalidKeySize => 1
  | .invalidBlockSize => 2
  | .invalidIvSize => 3
  | .decodeError => 4
  | .illegalCommand => 5
  | .dataTooLong => 6

/-- The error a STATUS value reports, if any: 0 is success (R210). -/
def Err.ofCode (c : BitVec 8) : Option Err :=
  match c.toNat with
  | 1 => some .invalidKeySize
  | 2 => some .invalidBlockSize
  | 3 => some .invalidIvSize
  | 4 => some .decodeError
  | 5 => some .illegalCommand
  | 6 => some .dataTooLong
  | _ => none

/-- `STATUS[3:0]`, the field ERR (R31). -/
def State.err (s : State) : BitVec 4 := s.status.extractLsb' 0 4

/-- `STATUS[7:4]`, which "reads as 0" (R31). -/
def State.statusHigh (s : State) : BitVec 4 := s.status.extractLsb' 4 4

/-- The STATUS values the engine can show (R31): "The engine's own commands produce ERR values 0, 1, 2, 3, 5, 6". -/
def legalStatus (v : BitVec 8) : Bool :=
  v = 0 || v = 1 || v = 2 || v = 3 || v = 5 || v = 6

end Sys2Proof.Machine
end

