-- ==== Sys2Proof/Machine/Ops.lean ====
section
/-! DEFINITION. The named operations over memory and registers, the two outcomes of a command (00_scope.md R18), and
reset (70_reset_and_hazards.md R240). -/

namespace Sys2Proof.Machine

/-! ### Byte sequences, 00_scope.md R12 and R15 -/

/-- `s[a +: n]`, R12. -/
def slice (s : List Byte) (a n : Nat) : List Byte := (s.drop a).take n

/-- The word `s[a +: 4]`, R12. The rules write it only where `a + 4 <= len(s)` (log 12). -/
def wordAt (s : List Byte) (a : Nat) : Word4 := Vector.ofFn fun j => s.getD (a + j) 0

/-- `last4(s)`, R12. -/
def last4 (s : List Byte) : Word4 := wordAt s (s.length - 4)

/-- The block whose first bytes are `s` and whose other bytes are `fill`: with `fill = 0` it is `zpad16(s)` of R15, with
`fill = 16 - len(s)` the padded chunk of 44_modes.md R183. A sequence of 16 bytes is taken as it is. -/
def fillBlock (fill : Byte) (s : List Byte) : Block := Vector.ofFn fun j => s.getD j fill

/-- `zpad16(s)`, R15. -/
def zpad16 (s : List Byte) : Block := fillBlock 0 s

/-- `v[a +: len(s)] <- s` on a register of `n` bytes, R15. -/
def overwrite {n : Nat} (v : Vector Byte n) (a : Nat) (s : List Byte) : Vector Byte n :=
  Vector.ofFn fun j => if a ≤ j ∧ j < a + s.length then s.getD (j - a) 0 else v[j]

/-! ### The data buffers -/

/-- The byte written last at index `j`, or none if nothing has written it since reset. -/
def Memory.read? : Memory → Nat → Option Byte
  | [], _ => none
  | (k, c) :: m, j => if j = k then some c else Memory.read? m j

/-- Store one byte, keeping the indices strictly rising. -/
def Memory.write : Memory → Nat → Byte → Memory
  | [], j, b => [(j, b)]
  | (k, c) :: m, j, b =>
    if j < k then (j, b) :: (k, c) :: m
    else if j = k then (j, b) :: m
    else (k, c) :: Memory.write m j b

/-- Store the bytes of a sequence at consecutive indices from `a`, in index order (R15). -/
def Memory.writeSeq : Memory → Nat → List Byte → Memory
  | m, _, [] => m
  | m, a, b :: bs => Memory.writeSeq (m.write a b) (a + 1) bs

/-- Every index is at least `lo`, they rise strictly, and all are below `cap`. -/
def Memory.wfFrom (lo cap : Nat) : Memory → Bool
  | [] => true
  | (k, _) :: m => lo ≤ k && k < cap && Memory.wfFrom (k + 1) cap m

/-- The canonical form of a data buffer of `cap` bytes (log 7). -/
def Memory.wf (cap : Nat) (m : Memory) : Bool := Memory.wfFrom 0 cap m

/-- `DIN[j]`: what was written last, else the free value of 10_state.md R37 (log 6). -/
def State.dinByte (s : State) (j : Nat) : Byte :=
  (s.din.read? j).getD (Config.powerOnByte s.resetCount 0x16 j)

/-- `DOUT[j]`, likewise. -/
def State.doutByte (s : State) (j : Nat) : Byte :=
  (s.dout.read? j).getD (Config.powerOnByte s.resetCount 0x17 j)

/-- `MemRead(addr, n)`, 00_scope.md R15: "`n` bytes of the data input buffer starting at byte index `addr`, in index order". -/
def State.memRead (s : State) (addr n : Nat) : List Byte :=
  (List.range n).map fun t => s.dinByte (addr + t)

/-- `MemWrite(addr, n, v)`, 00_scope.md R15, for a sequence `v` of `n` bytes: "written to the data output buffer". -/
def State.memWrite (s : State) (addr : Nat) (v : List Byte) : State :=
  { s with dout := s.dout.writeSeq addr v }

/-! ### The two outcomes of a command -/

/-- `raise E`, 60_exceptions.md R212: "STATUS.ERR becomes the code of E; nothing else changes ... and the command ends."
There is no handler, vector or saved context, so this is all of taking an exception, and nothing returns from one (R215).
The error is added to the model's own history (92_eei_decisions.md D10, log 4). -/
def State.raise (e : Err) (s : State) : Result :=
  .next { s with status := e.code, failures := e :: s.failures }

/-- Success, 00_scope.md R18: the result registers are written by the rule, and "STATUS becomes 0". -/
def State.succeed (s : State) : Result := .next { s with status := 0 }

/-! ### Reset -/

/-- Reset, 70_reset_and_hazards.md R240: "puts every item of R20 to the value R37 gives". The data buffers hold new free
values (log 6). The capacity and what belongs to the host, its pending actions, the values it has read and the model's
history, are no items of R20 and stay (log 10). -/
def State.afterReset (s : State) : State :=
  { State.reset with
    capBlocks := s.capBlocks
    resetCount := s.resetCount + 1
    pending := s.pending
    replies := s.replies
    failures := s.failures }

end Sys2Proof.Machine
end

