-- ==== Sys2Proof/Machine/Operands.lean ====
section
/-! DEFINITION. Operands, 30_encoding.md R72: all implicit, the contents of fixed registers; the size rules of
00_scope.md R8; and the chunks of 44_modes.md R180. -/

namespace Sys2Proof.Machine

/-- `XLEN(k) = (k/4 + 7) * 16`, R8: the length of the ExpandedKey of a key of `k` bytes. -/
def xlen (k : Nat) : Nat := (k / 4 + 7) * 16

/-- "A Key has length k in {16, 24, 32} bytes" (R8). -/
def legalKeyLen (k : Nat) : Bool := k = 16 || k = 24 || k = 32

/-- The lengths of an ExpandedKey, 176, 208 and 240 (R8). -/
def legalXkLen (n : Nat) : Bool := n = 176 || n = 208 || n = 240

/-- `key` is `KEY[0 +: KEYLEN]` (R72, 10_state.md R21). -/
def State.keyArg (s : State) : List Byte := slice s.key.toList 0 s.keylen.toNat

/-- `expandedKey` is `XKEY[0 +: XKLEN]` (R72, 10_state.md R22). -/
def State.xkeyArg (s : State) : List Byte := slice s.xkey.toList 0 s.xklen.toNat

/-- `n = ceil(N / 16)`, the number of chunks of an input of `N` bytes (44_modes.md R180). -/
def chunks (len : Nat) : Nat := (len + 15) / 16

/-- `L(i) = min(16, N - 16*i)`, the length of chunk `i` (44_modes.md R180). -/
def chunkLen (len i : Nat) : Nat := min 16 (len - 16 * i)

/-- Chunk `i` of the data input, `DIN[16*i +: L(i)]` (44_modes.md R180). No byte at DLEN or above is read
(20_memory.md R60). -/
def State.chunk (s : State) (i : Nat) : List Byte := s.memRead (16 * i) (chunkLen s.dlen.toNat i)

end Sys2Proof.Machine
end

