-- ==== Sys2Proof/Machine/KeyExpansion.lean ====
section
/-! DEFINITION. Key expansion, 41_key_expansion.md, and the command KEYEXPAND. -/

namespace Sys2Proof.Machine

/-- RotWord, R121: "rotate the 4 bytes left by one position". -/
def rotWord (w : Word4) : Word4 := #v[w[1], w[2], w[3], w[0]]

/-- SubWord, R121: "substitute each byte through the S-box". -/
def subWord (w : Word4) : Word4 := #v[sbox w[0], sbox w[1], sbox w[2], sbox w[3]]

/-- The core transform `Core(w, rc)`, R122: rotate, substitute, "then XOR the first byte with the next Rcon value". -/
def coreWord (w : Word4) (rc : Nat) : Word4 :=
  let t := subWord (rotWord w)
  #v[t[0] ^^^ rcon rc, t[1], t[2], t[3]]

/-! ### The generic form, R123 -/

/-- `Append(D, t)`, R123: the new word is `t` xor the word `k` bytes before the position where it will stand. -/
def appendWord (k : Nat) (d : List Byte) (t : Word4) : List Byte :=
  d ++ (xorV t (wordAt d (d.length - k))).toList

/-- `repeat n times: D = Append(D, last4(D))`, R123. -/
def plainWords (k : Nat) : Nat → List Byte → List Byte
  | 0, d => d
  | n + 1, d => plainWords k n (appendWord k d (last4 d))

/-- `E(k)`, R123: the extra plain words of a group, 0 for k = 16 (90_conflicts.md C1), 2 for k = 24, 3 for k = 32. -/
def extraWords (k : Nat) : Nat := if k = 24 then 2 else if k = 32 then 3 else 0

/-- One pass of R123's `while` body, a group: the core word, three plain words, for k = 32 one substituted word, and
`E(k)` plain words. -/
def keyGroup (k rc : Nat) (d : List Byte) : List Byte :=
  let d := appendWord k d (coreWord (last4 d) rc)
  let d := plainWords k 3 d
  let d := if k = 32 then appendWord k d (subWord (last4 d)) else d
  plainWords k (extraWords k) d

/-- R123's `while len(D) < T`, made only between groups (R127). The first argument bounds the passes; every group appends
at least 16 bytes, so `T` passes are more than the loop ever makes. -/
def keyGroups (k T : Nat) : Nat → Nat → List Byte → List Byte
  | 0, _, d => d
  | fuel + 1, rc, d => if d.length < T then keyGroups k T fuel (rc + 1) (keyGroup k rc d) else d

/-- KeyExpand(K), R123: "start with the raw key bytes", "Rcon index starts at 1", and "truncate to the exact target
length". -/
def keyExpand (key : List Byte) : List Byte :=
  let k := key.length
  let T := xlen k
  slice (keyGroups k T T 1 key) 0 T

/-! ### Unrolled per key size, R124 to R126 -/

/-- The three kinds of step of 41_key_expansion.md section 4, with Rcon index `g`. -/
inductive KeyStep where
  /-- `C: D = Append(D, Core(last4(D), g))` -/
  | C
  /-- `P: D = Append(D, last4(D))` -/
  | P
  /-- `S: D = Append(D, SubWord(last4(D)))` -/
  | S
  deriving DecidableEq, Repr

/-- One step of a group. -/
def keyStep (k g : Nat) (d : List Byte) : KeyStep → List Byte
  | .C => appendWord k d (coreWord (last4 d) g)
  | .P => appendWord k d (last4 d)
  | .S => appendWord k d (subWord (last4 d))

/-- Groups `g = 1 .. n` of the given steps, from the key, then the first `T` bytes. -/
def unrolled (steps : List KeyStep) (n T : Nat) (key : List Byte) : List Byte :=
  slice ((List.range n).foldl (fun d g => steps.foldl (keyStep key.length (g + 1)) d) key) 0 T

/-- The 128-bit schedule, R124: ten groups `C P P P`. -/
def expand128 (key : List Byte) : List Byte := unrolled [.C, .P, .P, .P] 10 176 key

/-- The 192-bit schedule, R125: eight groups `C P P P P P`, the last 8 bytes dropped. -/
def expand192 (key : List Byte) : List Byte := unrolled [.C, .P, .P, .P, .P, .P] 8 208 key

/-- The 256-bit schedule, R126: seven groups `C P P P S P P P`, the last 16 bytes dropped. -/
def expand256 (key : List Byte) : List Byte := unrolled [.C, .P, .P, .P, .S, .P, .P, .P] 7 240 key

/-! ### The word recurrence, R131 -/

/-- Word `j` of R131 from the words before it: `w[j] = K[4*j +: 4]` for `j < Nk`, and from there on
`w[j - Nk] xor t`. -/
def recurrenceWord (key : List Byte) (j : Nat) (ws : List Word4) : Word4 :=
  let nk := key.length / 4
  if j < nk then wordAt key (4 * j)
  else
    let t := ws.getD (j - 1) (Vector.replicate 4 0)
    let t :=
      if j % nk = 0 then coreWord t (j / nk)
      else if nk = 8 ∧ j % 8 = 4 then subWord t
      else t
    xorV (ws.getD (j - nk) (Vector.replicate 4 0)) t

/-- The first `n` words of R131's recurrence, in order. -/
def recurrenceWords (key : List Byte) : Nat → List Word4
  | 0 => []
  | j + 1 => recurrenceWords key j ++ [recurrenceWord key j (recurrenceWords key j)]

/-! ### The command -/

/-- KEYEXPAND, R130. -/
def execKeyexpand (s : State) : Result :=
  if legalKeyLen s.keylen.toNat then
    let X := keyExpand s.keyArg
    State.succeed { s with xkey := overwrite s.xkey 0 X, xklen := BitVec.ofNat 8 X.length }
  else s.raise .invalidKeySize

end Sys2Proof.Machine
end

