-- ==== Sys2Proof/Machine/BlockCipher.lean ====
section
/-! DEFINITION. The block cipher core, 42_block_cipher.md, and the commands BLKENC and BLKDEC. -/

namespace Sys2Proof.Machine

/-! ### Round transformations -/

/-- Round-key slice `i` of an ExpandedKey, `X[16*i +: 16]` (41_key_expansion.md R132). -/
def roundKey (X : List Byte) (i : Nat) : Block := Vector.ofFn fun j => X.getD (16 * i + j) 0

/-- AddRoundKey(S, X, i), R141: "a plain byte-wise XOR with the relevant 16-byte slice of the expanded key". -/
def addRoundKey (S : Block) (X : List Byte) (i : Nat) : Block := xorV S (roundKey X i)

/-- SubBytes, R143. -/
def subBytes (S : Block) : Block := Vector.ofFn fun j => sbox S[j]

/-- InvSubBytes, R144. -/
def invSubBytes (S : Block) : Block := Vector.ofFn fun j => invSbox S[j]

/-- The byte of the State at row `r` and column `c`, both taken mod 4: `S[r + 4*c]` (00_scope.md R16). -/
def at4 (S : Block) (r c : Nat) : Byte := S[r % 4 + 4 * (c % 4)]

/-- The State whose byte at row `r`, column `c` is `f r c` (00_scope.md R16). -/
def ofMatrix (f : Nat → Nat → Byte) : Block := Vector.ofFn fun j => f (j.val % 4) (j.val / 4)

/-- ShiftRows, R145: "output byte at matrix position (row, column) = input byte at position (row, (column + row) mod 4)". -/
def shiftRows (S : Block) : Block := ofMatrix fun r c => at4 S r (c + r)

/-- InvShiftRows, R146: "inverse subtracts instead of adds, both modulo 4". With `r` at most 3, `(c - r) mod 4` in 0..3 is
`(c + (4 - r)) mod 4`. -/
def invShiftRows (S : Block) : Block := ofMatrix fun r c => at4 S r (c + (4 - r))

/-- The GF(2^8) dot product of column `c` of the State with row `r` of a matrix, R147. -/
def mixByte (M : Vector (Vector Byte 4) 4) (S : Block) (r c : Nat) : Byte :=
  let row := M[r % 4]
  gfmul (at4 S 0 c) row[0] ^^^ gfmul (at4 S 1 c) row[1] ^^^ gfmul (at4 S 2 c) row[2] ^^^ gfmul (at4 S 3 c) row[3]

/-- MixColumns, R147. -/
def mixColumns (S : Block) : Block := ofMatrix (mixByte mixMatrix S)

/-- InvMixColumns, R148. -/
def invMixColumns (S : Block) : Block := ofMatrix (mixByte invMixMatrix S)

/-! ### The round sequences -/

/-- `Nr(X) = len(X)/16 - 1`, R140. -/
def rounds (X : List Byte) : Nat := X.length / 16 - 1

/-- Round `i` of Encrypt, R149: SubBytes, ShiftRows, "and, only if i != Nr, MixColumns; then XOR with round-key slice i". -/
def encRound (X : List Byte) (i : Nat) (S : Block) : Block :=
  let S := shiftRows (subBytes S)
  let S := if i ≠ rounds X then mixColumns S else S
  addRoundKey S X i

/-- The State of Encrypt after rounds `1 .. i`, R149, from the initial AddRoundKey with slice 0. -/
def encRounds (B : Block) (X : List Byte) : Nat → Block
  | 0 => addRoundKey B X 0
  | i + 1 => encRound X (i + 1) (encRounds B X i)

/-- Encrypt(B, X), R149. -/
def encrypt (B : Block) (X : List Byte) : Block := encRounds B X (rounds X)

/-- Round `i` of Decrypt, R150: "XOR with round-key slice i; if i != Nr apply inverse MixColumns; apply inverse ShiftRows;
apply inverse SubBytes". -/
def decRound (X : List Byte) (i : Nat) (S : Block) : Block :=
  let S := addRoundKey S X i
  let S := if i ≠ rounds X then invMixColumns S else S
  invSubBytes (invShiftRows S)

/-- Rounds `i, i-1, .. , 1` of Decrypt, R150, then the XOR with slice 0. -/
def decRounds (X : List Byte) : Nat → Block → Block
  | 0, S => addRoundKey S X 0
  | i + 1, S => decRounds X i (decRound X (i + 1) S)

/-- Decrypt(B, X), R150. -/
def decrypt (B : Block) (X : List Byte) : Block := decRounds X (rounds X) B

/-! ### The commands -/

/-- The tests of BLKENC and BLKDEC, R152, in their order (60_exceptions.md R214): the first that fails, if any. -/
def blockError (s : State) : Option Err :=
  if legalXkLen s.xklen.toNat = false then some .invalidKeySize
  else if s.blklen.toNat ≠ 16 then some .invalidBlockSize
  else none

/-- BLKENC, R152. -/
def execBlkenc (s : State) : Result :=
  match blockError s with
  | some e => s.raise e
  | none => State.succeed { s with res := encrypt s.blk s.xkeyArg }

/-- BLKDEC, R153. -/
def execBlkdec (s : State) : Result :=
  match blockError s with
  | some e => s.raise e
  | none => State.succeed { s with res := decrypt s.blk s.xkeyArg }

end Sys2Proof.Machine
end

