-- ==== Sys2Proof/Machine/Counter.lean ====
section
/-! DEFINITION. The 128-bit big-endian counter, 43_counter.md, and the command CTRNEXT. -/

namespace Sys2Proof.Machine

/-- R171's loop on the bytes `0 .. j-1`: the carry arrives at byte `j-1`. "255 → 0 carries into the next more-significant
byte to the left". -/
def incBelow (R : Block) : (j : Nat) → j ≤ 16 → Block
  | 0, _ => R
  | j + 1, h =>
    if R[j] = 0xff then incBelow (R.set j 0x00) j (by omega)
    else R.set j (R[j] + 1)

/-- Inc128(C), R171: "increment is big-endian over the full 16 bytes with byte-level carry". -/
def inc128 (C : Block) : Block := incBelow C 16 (Nat.le_refl 16)

/-- Next(), R172: the current value, and the machine with CTR replaced by its successor. -/
def State.next (s : State) : Block × State := (s.ctr, { s with ctr := inc128 s.ctr })

/-- `val(C)`, R174: the unsigned integer whose big-endian bytes are `C`. -/
def ctrVal (C : Block) : Nat := C.toList.foldl (fun v b => 256 * v + b.toNat) 0

/-- CTRNEXT, R173: "RES gets the old value, CTR the incremented one". It tests nothing and cannot fail. -/
def execCtrnext (s : State) : Result :=
  let (v, s) := s.next
  State.succeed { s with res := v }

end Sys2Proof.Machine
end

