-- ==== Sys2Proof/Machine/Modes.lean ====
section
/-! DEFINITION. The mode controllers, 44_modes.md: CBCENC, CBCDEC, CTRCRYPT. Each expands KEY for itself (R181) and walks
the input in 16-byte chunks, in order. -/

namespace Sys2Proof.Machine

/-- The common tests of a mode command, R181, in their order (60_exceptions.md R214): the first that fails, if any. Only
the two CBC commands test IVLEN. -/
def modeError (usesIv : Bool) (s : State) : Option Err :=
  if legalKeyLen s.keylen.toNat = false then some .invalidKeySize
  else if usesIv ∧ s.ivlen.toNat ≠ 16 then some .invalidIvSize
  else if s.maxLen < s.dlen.toNat then some .dataTooLong
  else none

/-- The transient expanded key of a mode command, R181: recomputed from KEY every time, never taken from XKEY. -/
def modeKey (s : State) : List Byte := keyExpand s.keyArg

/-! ### CBC -/

/-- The padding rule, R183: a final chunk short by `r` bytes gets "r bytes each equal to the value r". A chunk of 16 bytes
is used as it is. -/
def cbcPad (chunk : List Byte) : Block := fillBlock (BitVec.ofNat 8 (16 - chunk.length)) chunk

/-- The body of CBCENC's loop for chunk `i`, R182. The pair is the machine and `prev`. -/
def cbcencChunk (X : List Byte) (p : State × Block) (i : Nat) : State × Block :=
  let (s, prev) := p
  let E := encrypt (xorV (cbcPad (s.chunk i)) prev) X
  (s.memWrite (16 * i) E.toList, E)

/-- CBCENC, R182. -/
def execCbcenc (s : State) : Result :=
  match modeError true s with
  | some e => s.raise e
  | none =>
    let n := chunks s.dlen.toNat
    let (t, _) := (List.range n).foldl (cbcencChunk (modeKey s)) (s, s.iv)
    State.succeed { t with olen := BitVec.ofNat 32 (16 * n) }

/-- The body of CBCDEC's loop for chunk `i`, R185: the chaining value is the ciphertext chunk, and "only the first L bytes
are kept". -/
def cbcdecChunk (X : List Byte) (p : State × Block) (i : Nat) : State × Block :=
  let (s, prev) := p
  let chunk := zpad16 (s.chunk i)
  let Pt := xorV (decrypt chunk X) prev
  (s.memWrite (16 * i) (slice Pt.toList 0 (chunkLen s.dlen.toNat i)), chunk)

/-- CBCDEC, R185. -/
def execCbcdec (s : State) : Result :=
  match modeError true s with
  | some e => s.raise e
  | none =>
    let (t, _) := (List.range (chunks s.dlen.toNat)).foldl (cbcdecChunk (modeKey s)) (s, s.iv)
    State.succeed { t with olen := s.dlen }

/-! ### CTR -/

/-- The body of CTRCRYPT's loop for chunk `i`, R188: "obtain the next Counter value, encrypt it ... to form a keystream
block, XOR the keystream with the (zero-padded) input chunk". -/
def ctrcryptChunk (X : List Byte) (s : State) (i : Nat) : State :=
  let (V, s) := s.next
  let KS := encrypt V X
  let O := xorV (zpad16 (s.chunk i)) KS
  s.memWrite (16 * i) (slice O.toList 0 (chunkLen s.dlen.toNat i))

/-- CTRCRYPT, R188. -/
def execCtrcrypt (s : State) : Result :=
  match modeError false s with
  | some e => s.raise e
  | none =>
    let t := (List.range (chunks s.dlen.toNat)).foldl (ctrcryptChunk (modeKey s)) s
    State.succeed { t with olen := s.dlen }

end Sys2Proof.Machine
end

