-- ==== Sys2Proof/Machine/Dispatch.lean ====
section
/-! DEFINITION. One meaning per command. -/

namespace Sys2Proof.Machine

def exec (i : Instr) (s : State) : Host.Outcome State Fault Refusal :=
  match i with
  | .keyexpand => Sys2Proof.Machine.execKeyexpand s
  | .blkenc => Sys2Proof.Machine.execBlkenc s
  | .blkdec => Sys2Proof.Machine.execBlkdec s
  | .cbcenc => Sys2Proof.Machine.execCbcenc s
  | .cbcdec => Sys2Proof.Machine.execCbcdec s
  | .ctrcrypt => Sys2Proof.Machine.execCtrcrypt s
  | .ctrnext => Sys2Proof.Machine.execCtrnext s

end Sys2Proof.Machine
end

