-- ==== Sys2Proof/Machine/Items.lean ====
section
/-! DEFINITION. The register ids, kinds, capacities and access rights of the sixteen items, 10_state.md R20 and
20_memory.md R50. -/

namespace Sys2Proof.Machine

/-- The sixteen items of R20. -/
inductive Item where
  | cmd | status | keylen | xklen | blklen | ivlen | dlen | olen
  | key | xkey | blk | iv | ctr | res | din | dout
  deriving DecidableEq, Repr

/-- The register number, column "id" of R20. -/
def Item.id : Item → Nat
  | .cmd => 0x00
  | .status => 0x01
  | .keylen => 0x02
  | .xklen => 0x03
  | .blklen => 0x04
  | .ivlen => 0x05
  | .dlen => 0x06
  | .olen => 0x07
  | .key => 0x10
  | .xkey => 0x11
  | .blk => 0x12
  | .iv => 0x13
  | .ctr => 0x14
  | .res => 0x15
  | .din => 0x16
  | .dout => 0x17

/-- The item a register id names: "Ids 0x08..0x0F and 0x18 and above name nothing" (R50). -/
def Item.ofId : Nat → Option Item
  | 0x00 => some .cmd
  | 0x01 => some .status
  | 0x02 => some .keylen
  | 0x03 => some .xklen
  | 0x04 => some .blklen
  | 0x05 => some .ivlen
  | 0x06 => some .dlen
  | 0x07 => some .olen
  | 0x10 => some .key
  | 0x11 => some .xkey
  | 0x12 => some .blk
  | 0x13 => some .iv
  | 0x14 => some .ctr
  | 0x15 => some .res
  | 0x16 => some .din
  | 0x17 => some .dout
  | _ => none

/-- The width in bits of a scalar, none for a buffer (columns "kind" and "capacity" of R20). -/
def Item.scalarBits : Item → Option Nat
  | .cmd | .status | .keylen | .xklen | .blklen | .ivlen => some 8
  | .dlen | .olen => some 32
  | .key | .xkey | .blk | .iv | .ctr | .res | .din | .dout => none

/-- The capacity in bytes of a buffer, none for a scalar, for a given MAXLEN (column "capacity" of R20). -/
def Item.capacity (maxLen : Nat) : Item → Option Nat
  | .cmd | .status | .keylen | .xklen | .blklen | .ivlen | .dlen | .olen => none
  | .key => some 32
  | .xkey => some 240
  | .blk | .iv | .ctr | .res => some 16
  | .din | .dout => some maxLen

/-- "host access" of R20: the host may read it. -/
def Item.hostReads : Item → Bool
  | .cmd => false
  | .status | .keylen | .xklen | .blklen | .ivlen | .dlen | .olen
  | .key | .xkey | .blk | .iv | .ctr | .res | .din | .dout => true

/-- "host access" of R20: the host may write it. -/
def Item.hostWrites : Item → Bool
  | .status | .olen | .res | .dout => false
  | .cmd | .keylen | .xklen | .blklen | .ivlen | .dlen | .key | .xkey | .blk | .iv | .ctr | .din => true

/-- The length register of a buffer operand (30_encoding.md R76: "KEYLEN for KEY, XKLEN for XKEY, BLKLEN for BLK, IVLEN for
IV, DLEN for DIN"; CTR has none). -/
def Item.lengthReg : Item → Option Item
  | .key => some .keylen
  | .xkey => some .xklen
  | .blk => some .blklen
  | .iv => some .ivlen
  | .din => some .dlen
  | .cmd | .status | .keylen | .xklen | .blklen | .ivlen | .dlen | .olen | .ctr | .res | .dout => none

/-- The value of a readable scalar; none for a buffer and for CMD, which stores nothing (R29). -/
def State.scalar (s : State) : Item → Option Nat
  | .status => some s.status.toNat
  | .keylen => some s.keylen.toNat
  | .xklen => some s.xklen.toNat
  | .blklen => some s.blklen.toNat
  | .ivlen => some s.ivlen.toNat
  | .dlen => some s.dlen.toNat
  | .olen => some s.olen.toNat
  | .cmd | .key | .xkey | .blk | .iv | .ctr | .res | .din | .dout => none

/-- The byte at index `j` of a buffer; none for a scalar and at or above the capacity (20_memory.md R56). -/
def State.bufferByte (s : State) (it : Item) (j : Nat) : Option Byte :=
  match it with
  | .key => s.key[j]?
  | .xkey => s.xkey[j]?
  | .blk => s.blk[j]?
  | .iv => s.iv[j]?
  | .ctr => s.ctr[j]?
  | .res => s.res[j]?
  | .din => if j < s.maxLen then some (s.dinByte j) else none
  | .dout => if j < s.maxLen then some (s.doutByte j) else none
  | .cmd | .status | .keylen | .xklen | .blklen | .ivlen | .dlen | .olen => none

end Sys2Proof.Machine
end

