-- ==== Sys2Proof/Machine/HostPort.lean ====
section
/-! DEFINITION. The host's actions, 20_memory.md R56, on the registers of 10_state.md R20, and reset. "An action outside
this list ... does not exist: the model gives the host no such move": it is refused, each kind by a name of its own. Where one
action is wrong in several ways the spec gives no name for it: DESIGN CHOICE (log 9), the first of no such item, wrong kind,
not permitted, value or index. -/

namespace Sys2Proof.Machine

/-- `Issue(op)`, 10_state.md R29: "A host write of the 8-bit value op to CMD issues the command whose opcode is op and the
engine executes it to completion". A reserved opcode "executes nothing: STATUS.ERR becomes 5" (30_encoding.md R73). -/
def issue (op : Byte) (s : State) : Result :=
  match decode op with
  | .ok i => exec i s
  | .error _ => s.raise .illegalCommand

/-- Store `v` in a writable scalar of `w` bits, "where v fits the scalar's width" (R56). -/
def storeScalar (w v : Nat) (put : BitVec w → Result) : Result :=
  if v < 2 ^ w then put (BitVec.ofNat w v) else .refused .valueTooWide

/-- `HostWriteReg(id, v)`, R56. The five length registers are "plain storage" (10_state.md R30); a write to CMD issues a
command. Of a buffer it is the wrong kind of action, also of the read-only RES and DOUT (DESIGN CHOICE, log 9). -/
def hostWriteReg (id v : Nat) (s : State) : Result :=
  match Item.ofId id with
  | none => .refused .noSuchItem
  | some .cmd => storeScalar 8 v fun op => issue op s
  | some .keylen => storeScalar 8 v fun x => .next { s with keylen := x }
  | some .xklen => storeScalar 8 v fun x => .next { s with xklen := x }
  | some .blklen => storeScalar 8 v fun x => .next { s with blklen := x }
  | some .ivlen => storeScalar 8 v fun x => .next { s with ivlen := x }
  | some .dlen => storeScalar 32 v fun x => .next { s with dlen := x }
  | some .status | some .olen => .refused .notWritable
  | some .key | some .xkey | some .blk | some .iv | some .ctr | some .res | some .din | some .dout => .refused .wrongKind

/-- `HostReadReg(id)`, R56: the value goes to the host, and "a host read has no side effect on any state" (R59). -/
def hostReadReg (id : Nat) (s : State) : Result :=
  match Item.ofId id with
  | none => .refused .noSuchItem
  | some .cmd => .refused .notReadable
  | some it =>
    match s.scalar it with
    | some v => .next { s with replies := s.replies ++ [.scalar v] }
    | none => .refused .wrongKind

/-- Store a byte at an index "below its capacity" (R56). -/
def storeByte {n : Nat} (v : Vector Byte n) (j : Nat) (b : Byte) (put : Vector Byte n → State) : Result :=
  if h : j < n then .next (put (v.set j b)) else .refused .indexOutOfRange

/-- `HostWriteByte(id, j, b)`, R56. Of a scalar it is the wrong kind of action, also of the read-only STATUS and OLEN; of the
read-only RES and DOUT it is not permitted at any index (DESIGN CHOICE, log 9). -/
def hostWriteByte (id j : Nat) (b : Byte) (s : State) : Result :=
  match Item.ofId id with
  | none => .refused .noSuchItem
  | some .key => storeByte s.key j b fun x => { s with key := x }
  | some .xkey => storeByte s.xkey j b fun x => { s with xkey := x }
  | some .blk => storeByte s.blk j b fun x => { s with blk := x }
  | some .iv => storeByte s.iv j b fun x => { s with iv := x }
  | some .ctr => storeByte s.ctr j b fun x => { s with ctr := x }
  | some .din =>
    if j < s.maxLen then .next { s with din := s.din.write j b } else .refused .indexOutOfRange
  | some .res | some .dout => .refused .notWritable
  | some .cmd | some .status | some .keylen | some .xklen | some .blklen | some .ivlen | some .dlen
  | some .olen => .refused .wrongKind

/-- `HostReadByte(id, j)`, R56. Of a scalar it is the wrong kind of action, also of the write-only CMD (DESIGN CHOICE,
log 9). -/
def hostReadByte (id j : Nat) (s : State) : Result :=
  match Item.ofId id with
  | none => .refused .noSuchItem
  | some it =>
    match it.capacity s.maxLen, s.bufferByte it j with
    | none, _ => .refused .wrongKind
    | some _, none => .refused .indexOutOfRange
    | some _, some b => .next { s with replies := s.replies ++ [.byte b] }

/-- One action of the host, or the platform's reset. -/
def perform (e : HostEvent) (s : State) : Result :=
  match e with
  | .writeReg id v => hostWriteReg id v s
  | .readReg id => hostReadReg id s
  | .writeByte id j b => hostWriteByte id j b s
  | .readByte id j => hostReadByte id j s
  | .reset => .next s.afterReset

/-- The host's oldest pending action, performed; with none the engine is idle: "The engine never acts unless a command was
issued" (00_scope.md R17; log 2). -/
def performPending (s : State) : Result :=
  match s.pending with
  | [] => .next s
  | e :: rest => perform e { s with pending := rest }

end Sys2Proof.Machine
end

