-- ==== Sys2Proof/Machine/Step.lean ====
section
/-! DEFINITION. One step: the host's oldest pending action (20_memory.md R62), performed whole. There is no program counter
and no fetch (10_state.md R33): "The order of commands is the order in which the host writes CMD." -/

namespace Sys2Proof.Machine

/-- One step. -/
def step (s : State) : Host.Outcome State Fault Refusal := performPending s

/-- The state in which the very next step issues the command `w`: the host's next action is the write of `w` to CMD
(10_state.md R29), before whatever it has pending. A command is one byte (30_encoding.md R70), so the number of bits
places nothing further. -/
def State.withFetchWord (s : State) (_nbits w : Nat) : State :=
  { s with pending := .writeReg 0x00 w :: s.pending }

end Sys2Proof.Machine
end

