-- ==== Sys2Proof/WellFormed.lean ====
section
/-! DEFINITION. What is well-formed: commands, opcodes, and the moves that 20_memory.md R56 gives the host. -/

namespace Sys2Proof

/-- Every command is well-formed: none has an operand field that could hold a wrong value (30_encoding.md R70). -/
def Instr.wellFormed : Instr → Bool
  | .keyexpand => true
  | .blkenc => true
  | .blkdec => true
  | .cbcenc => true
  | .cbcdec => true
  | .ctrcrypt => true
  | .ctrnext => true

/-- The opcodes that are not reserved, 30_encoding.md R71 and R73: 0x01 to 0x07. -/
def legalOpcode (op : Byte) : Bool := 1 ≤ op.toNat && op.toNat ≤ 7

namespace Machine

/-- The moves the host has, 20_memory.md R56, and the platform's reset, for a given MAXLEN: a register action names a
scalar, a byte action a buffer; the item may be so accessed (10_state.md R20); a value fits the scalar's width; an index
is below the capacity. -/
def HostEvent.wellFormed (maxLen : Nat) : HostEvent → Bool
  | .writeReg id v =>
    match Item.ofId id with
    | some it => it.hostWrites && (match it.scalarBits with | some w => v < 2 ^ w | none => false)
    | none => false
  | .readReg id =>
    match Item.ofId id with
    | some it => it.hostReads && it.scalarBits.isSome
    | none => false
  | .writeByte id j _ =>
    match Item.ofId id with
    | some it => it.hostWrites && (match it.capacity maxLen with | some c => j < c | none => false)
    | none => false
  | .readByte id j =>
    match Item.ofId id with
    | some it => it.hostReads && (match it.capacity maxLen with | some c => j < c | none => false)
    | none => false
  | .reset => true

end Machine
end Sys2Proof
end

