-- ==== Sys2Proof/Laws/PerInstr.lean ====
section
/-! SUPPORT. Statements about every command as syntax, one lemma per constructor. -/

namespace Sys2Proof.Laws.DecodeEncode

/-- The decoder gives back every well-formed command the encoder writes (30_encoding.md R71). -/
def Statement (i : Instr) : Prop := i.wellFormed = true → decode (encode i) = .ok i

theorem keyexpand : Statement .keyexpand := fun _ => rfl
theorem blkenc : Statement .blkenc := fun _ => rfl
theorem blkdec : Statement .blkdec := fun _ => rfl
theorem cbcenc : Statement .cbcenc := fun _ => rfl
theorem cbcdec : Statement .cbcdec := fun _ => rfl
theorem ctrcrypt : Statement .ctrcrypt := fun _ => rfl
theorem ctrnext : Statement .ctrnext := fun _ => rfl

end Sys2Proof.Laws.DecodeEncode
end

