-- ==== Sys2Proof/Machine/HostProgram.lean ====
section
/-! DEFINITION. The host-program notation of 30_encoding.md R75 and R76: each line expands to host actions of 20_memory.md
R56 and "adds no capability". `EXPECT` is not an action and has no line here. -/

namespace Sys2Proof.Machine

/-- One line of a host program. -/
inductive HostLine where
  /-- `WR <scalar>, <n>` -/
  | wr (r : Item) (n : Nat)
  /-- `RD <scalar>` -/
  | rd (r : Item)
  /-- `WRB <buffer>, <j>, <b>` -/
  | wrb (b : Item) (j : Nat) (v : Byte)
  /-- `RDB <buffer>, <j>` -/
  | rdb (b : Item) (j : Nat)
  /-- `CMD <mnemonic>` -/
  | cmd (i : Instr)
  /-- `CMD <opcode>`, as program P5 of 95_test_vectors.md writes a reserved opcode (log 15). -/
  | cmdOp (op : Byte)
  /-- `LOAD <buffer>, <hex>` -/
  | load (b : Item) (bytes : List Byte)
  /-- `SETLEN <buffer>, <n>` -/
  | setlen (b : Item) (n : Nat)
  /-- `READ <buffer>, <n>` -/
  | read (b : Item) (n : Nat)
  deriving DecidableEq, Repr

/-- `WRB <buffer>, a, b0`, `WRB <buffer>, a+1, b1`, ... -/
def writeBytes (b : Item) : Nat → List Byte → List HostEvent
  | _, [] => []
  | a, v :: vs => .writeByte b.id a v :: writeBytes b (a + 1) vs

/-- The `WR` of `n` to the buffer's length register, or nothing where it has none (R76). -/
def writeLength (b : Item) (n : Nat) : List HostEvent :=
  match b.lengthReg with
  | some r => [.writeReg r.id n]
  | none => []

/-- The host actions a line stands for (R75, R76). -/
def HostLine.expand : HostLine → List HostEvent
  | .wr r n => [.writeReg r.id n]
  | .rd r => [.readReg r.id]
  | .wrb b j v => [.writeByte b.id j v]
  | .rdb b j => [.readByte b.id j]
  | .cmd i => [.writeReg Item.cmd.id (encode i).toNat]
  | .cmdOp op => [.writeReg Item.cmd.id op.toNat]
  | .load b bytes => writeBytes b 0 bytes ++ writeLength b bytes.length
  | .setlen b n => writeLength b n
  | .read b n => (List.range n).map fun j => .readByte b.id j

/-- The rules a line of the notation must keep (R76): a LOAD fits the buffer, which the host may write, and for CTR "must
spell exactly 16 bytes"; a SETLEN names a buffer with a length register. The other lines are the host's moves themselves. -/
def HostLine.wellFormed (maxLen : Nat) : HostLine → Bool
  | .load b bytes =>
    b.hostWrites &&
    (match b.capacity maxLen with
     | some c => bytes.length ≤ c && (b ≠ .ctr || bytes.length = 16)
     | none => false)
  | .setlen b _ => b.lengthReg.isSome
  | .wr .. | .rd .. | .wrb .. | .rdb .. | .cmd .. | .cmdOp .. | .read .. => true

/-- Perform actions in order, stopping at the first refusal. -/
def performAll : List HostEvent → State → Result
  | [], s => .next s
  | e :: es, s =>
    match perform e s with
    | .next t => performAll es t
    | .fault f => .fault f
    | .refused r => .refused r

/-- Perform the lines of a host program in order. -/
def runLines (ls : List HostLine) (s : State) : Result := performAll (ls.flatMap HostLine.expand) s

end Sys2Proof.Machine
end

