-- ==== Sys2Proof/Machine/PasswordText.lean ====
section
/-! DEFINITION. Password text decryption, 45_password_text.md: the pseudo-instruction DECRYPT_PWTEXT, "a procedure the host
runs using three engine commands". It starts from the outputs of the two host-side functions (R201, log 13): the payload,
or none where Base64Decode fails, and the password's UTF-8 bytes. -/

namespace Sys2Proof.Machine

/-- R203: "up to keySize bytes of the UTF-8-encoded password, zero-padding on the right to exactly keySize bytes". -/
def rawKey (pw : List Byte) (ks : Nat) : List Byte :=
  pw.take ks ++ List.replicate (ks - min pw.length ks) 0

/-- R202: the first 8 bytes of the payload. -/
def nonce (payload : List Byte) : List Byte := slice payload 0 8

/-- R202: the rest of the payload, the CTR-mode ciphertext. -/
def cipherText (payload : List Byte) : List Byte := slice payload 8 (payload.length - 8)

/-- R204: "the 8-byte nonce followed by 8 zero bytes". -/
def counterStart (payload : List Byte) : List Byte := nonce payload ++ List.replicate 8 0

/-- R205: the 16-byte result tiled `floor(ks / 16)` times, 1, 1, 2 for 16, 24, 32 (90_conflicts.md C4). -/
def tile (E : List Byte) (ks : Nat) : List Byte := (List.replicate (ks / 16) E).flatten

/-- The effective key of R205 as a function: "encrypting the first 16 bytes of the raw key material with itself". -/
def effectiveKey (pw : List Byte) (ks : Nat) : List Byte :=
  let raw := rawKey pw ks
  tile (encrypt (fillBlock 0 (slice raw 0 16)) (keyExpand raw)).toList ks

/-- How the procedure ends. -/
inductive PwOutcome where
  /-- The plaintext read from DOUT, and the engine afterwards. -/
  | plaintext (bytes : List Byte) (s : State)
  /-- An error of the host's own checks, or the error STATUS showed after a command, and the engine afterwards. -/
  | error (e : Err) (s : State)
  /-- A host action that does not exist (log 14). -/
  | refused (r : Refusal)
  deriving DecidableEq, Repr

/-- Perform host actions and go on. -/
def thenHost (es : List HostEvent) (s : State) (k : State → PwOutcome) : PwOutcome :=
  match performAll es s with
  | .next t => k t
  | .fault f => nomatch f
  | .refused r => .refused r

/-- Issue a command, and "stop on a non-zero value" of STATUS (R207). -/
def thenCommand (i : Instr) (s : State) (k : State → PwOutcome) : PwOutcome :=
  thenHost (HostLine.cmd i).expand s fun t =>
    match Err.ofCode t.status with
    | none => k t
    | some e => .error e t

/-- What `READ <buffer>, <n>` answers (30_encoding.md R76): the bytes at the indices below `n`, in index order. -/
def State.readBytes (s : State) (b : Item) (n : Nat) : List Byte := (List.range n).filterMap (s.bufferByte b)

/-- `LOAD DIN, ct`. Of a ciphertext longer than MAXLEN the host loads the bytes DIN has room for and the whole length, so
that CTRCRYPT reports DataTooLong as R207 says (log 14). -/
def loadData (maxLen : Nat) (ct : List Byte) : List HostEvent :=
  writeBytes .din 0 (ct.take maxLen) ++ writeLength .din ct.length

/-- DECRYPT_PWTEXT, the expansion of R207, line by line. -/
def decryptPwText (payload : Option (List Byte)) (pw : List Byte) (ks : Nat) (s : State) : PwOutcome :=
  match payload with
  | none => .error .decodeError s
  | some payload =>
    if legalKeyLen ks = false then .error .invalidKeySize s
    else if payload.length < 8 then .error .decodeError s
    else
      let raw := rawKey pw ks
      thenHost (HostLine.load .key raw).expand s fun s =>
      thenCommand .keyexpand s fun s =>
      thenHost (HostLine.load .blk (slice raw 0 16)).expand s fun s =>
      thenCommand .blkenc s fun s =>
      let E := s.readBytes .res 16
      thenHost (HostLine.load .key (tile E ks)).expand s fun s =>
      thenHost (HostLine.load .ctr (counterStart payload)).expand s fun s =>
      thenHost (loadData s.maxLen (cipherText payload)) s fun s =>
      thenCommand .ctrcrypt s fun s =>
      .plaintext (s.readBytes .dout s.olen.toNat) s

end Sys2Proof.Machine
end

