-- ==== Sys2Proof/Safety.lean ====
section
/-! DEFINITION. The terms claims are stated in: the invariant of every state, the tests of each command in their fixed order,
and the blocks of the output buffer. -/

namespace Sys2Proof.Machine

/-- The invariant: the data buffers are in their canonical form, below MAXLEN (10_state.md R20, log 7); STATUS shows an
outcome the engine can produce, its upper bits 0 (R31); OLEN is at most MAXLEN (R20). -/
def State.Inv (s : State) : Bool :=
  s.din.wf s.maxLen && s.dout.wf s.maxLen && legalStatus s.status && s.olen.toNat ≤ s.maxLen

/-- The tests of each command and the error each reports, in the order of 60_exceptions.md R214. "A command never tests a
register it does not use." -/
def tests (s : State) : Instr → List (Bool × Err)
  | .keyexpand => [(!legalKeyLen s.keylen.toNat, .invalidKeySize)]
  | .blkenc => [(!legalXkLen s.xklen.toNat, .invalidKeySize), (s.blklen.toNat ≠ 16, .invalidBlockSize)]
  | .blkdec => [(!legalXkLen s.xklen.toNat, .invalidKeySize), (s.blklen.toNat ≠ 16, .invalidBlockSize)]
  | .cbcenc =>
    [(!legalKeyLen s.keylen.toNat, .invalidKeySize), (s.ivlen.toNat ≠ 16, .invalidIvSize),
     (s.maxLen < s.dlen.toNat, .dataTooLong)]
  | .cbcdec =>
    [(!legalKeyLen s.keylen.toNat, .invalidKeySize), (s.ivlen.toNat ≠ 16, .invalidIvSize),
     (s.maxLen < s.dlen.toNat, .dataTooLong)]
  | .ctrcrypt => [(!legalKeyLen s.keylen.toNat, .invalidKeySize), (s.maxLen < s.dlen.toNat, .dataTooLong)]
  | .ctrnext => []

/-- "exactly one is reported: the first in this fixed order" (60_exceptions.md R214). -/
def firstError : List (Bool × Err) → Option Err
  | [] => none
  | (fails, e) :: rest => if fails then some e else firstError rest

/-- All the tests of a command pass: the condition on the state alone under which it succeeds (00_scope.md R18). -/
def State.ready (s : State) (i : Instr) : Bool := (tests s i).all fun t => !t.1

/-- Block `i` of the data output buffer, `DOUT[16*i +: 16]`. -/
def State.doutBlock (s : State) (i : Nat) : Block := Vector.ofFn fun j => s.doutByte (16 * i + j)

end Sys2Proof.Machine
end

