-- ==== Sys2Proof/Certificates/Slice0/Obligations.lean ====
section
/-! DEFINITION. The statements for the provers. Each docstring says which rule of the spec it formalises. `failures`, the
model's own history of errors (log 4), is left open wherever a rule of the spec is stated. -/

open Sys2Proof Sys2Proof.Machine

/-! ### Encoding and the step -/

/-- The decoder gives back every well-formed command the encoder writes (30_encoding.md R71). -/
def Obligations.DecodeReadsEncodedCommand : Prop :=
  ∀ i : Instr, Sys2Proof.Laws.DecodeEncode.Statement i

/-- 30_encoding.md R74: every byte is exactly one of the seven opcodes or reserved; all eight bits count. -/
def Obligations.DecodeTotalOnEightBits : Prop :=
  ∀ op : Byte,
    (legalOpcode op = true ∧ ∃ i, encode i = op ∧ decode op = .ok i) ∨
    (legalOpcode op = false ∧ (∀ i, encode i ≠ op) ∧ decode op = .error (.reservedOpcode op))

/-- The opcode words of 30_encoding.md R71, bit by bit, and three reserved ones of R73. -/
def Obligations.OpcodeWordsDecode : Prop :=
  decode 0b00000001#8 = .ok .keyexpand ∧ decode 0b00000010#8 = .ok .blkenc ∧ decode 0b00000011#8 = .ok .blkdec ∧
  decode 0b00000100#8 = .ok .cbcenc ∧ decode 0b00000101#8 = .ok .cbcdec ∧ decode 0b00000110#8 = .ok .ctrcrypt ∧
  decode 0b00000111#8 = .ok .ctrnext ∧ decode 0b00000000#8 = .error (.reservedOpcode 0) ∧
  decode 0b00001000#8 = .error (.reservedOpcode 8) ∧ decode 0b10000001#8 = .error (.reservedOpcode 0x81)

/-- A step runs the decoded command: when the host's oldest pending action writes a command's opcode to CMD (10_state.md
R29), the step is that command's meaning, with the action no longer pending (log 1). -/
def Obligations.StepRunsDecodedCommand : Prop :=
  ∀ (s : State) (op : Byte) (i : Instr) (rest : List HostEvent),
    s.pending = .writeReg 0x00 op.toNat :: rest → decode op = .ok i → step s = exec i { s with pending := rest }

/-- The host's actions are performed one at a time, oldest first (20_memory.md R62), and with none the engine is idle. The
list of pending actions and the idle step are the model's (logs 1 and 2). -/
def Obligations.StepPerformsOldestAction : Prop :=
  (∀ (s : State) (e : HostEvent) (rest : List HostEvent),
    s.pending = e :: rest → step s = perform e { s with pending := rest }) ∧
  (∀ s : State, s.pending = [] → step s = .next s)

/-- 30_encoding.md R73: a reserved opcode executes nothing; STATUS.ERR becomes 5 and nothing else changes. -/
def Obligations.ReservedOpcodeReportsIllegalCommand : Prop :=
  ∀ (s : State) (op : Byte), op = 0x00 ∨ 0x08 ≤ op.toNat →
    decode op = .error (.reservedOpcode op) ∧ ∃ h, issue op s = .next { s with status := 5, failures := h }

/-! ### Invariants -/

/-- Every step keeps the invariant: canonical data buffers within MAXLEN (log 7), a STATUS the engine can show (10_state.md
R31), OLEN at most MAXLEN (R20). -/
def Obligations.StepKeepsInvariant : Prop :=
  ∀ s t : State, s.Inv = true → step s = .next t → t.Inv = true

/-- The invariant holds right after reset. -/
def Obligations.ResetMeetsInvariant : Prop := State.reset.Inv = true

/-- MAXLEN is a parameter (00_scope.md R9): a positive multiple of 16, at most 2^32 - 16, and no step changes it. -/
def Obligations.MaxLenIsLegalAndFixed : Prop :=
  (∀ s : State, 0 < s.maxLen ∧ s.maxLen % 16 = 0 ∧ s.maxLen ≤ 2 ^ 32 - 16) ∧
  (∀ s t : State, step s = .next t → t.maxLen = s.maxLen)

/-! ### Outcomes and errors -/

/-- 00_scope.md R18: a command has exactly two outcomes. On success STATUS becomes 0; on an error nothing but STATUS
changes. There is no third outcome. -/
def Obligations.CommandHasTwoOutcomes : Prop :=
  ∀ (i : Instr) (s : State), ∃ t, exec i s = .next t ∧
    (t.status = 0 ∨ (t.status ≠ 0 ∧ ∃ h, t = { s with status := t.status, failures := h }))

/-- 60_exceptions.md R214: exactly one error is reported, the first in the fixed order, the opcode's own before all; and
a command whose tests all pass succeeds. -/
def Obligations.FirstFailingTestIsReported : Prop :=
  (∀ (i : Instr) (s : State),
    match firstError (tests s i) with
    | some e => ∃ h, exec i s = .next { s with status := e.code, failures := h }
    | none => ∃ t, exec i s = .next t ∧ t.status = 0) ∧
  (∀ (op : Byte) (s : State), legalOpcode op = false → ∃ h, issue op s = .next { s with status := 5, failures := h })

/-- 60_exceptions.md R216: a failed command issued again, in any state `u` in which the registers it tests have the
outcomes they had (the failed state itself among them), fails again with the same code; a reserved opcode in every state. -/
def Obligations.FailedCommandFailsAgain : Prop :=
  (∀ (i : Instr) (s t u : State), exec i s = .next t → t.status ≠ 0 → tests u i = tests s i →
    ∃ v, exec i u = .next v ∧ v.status = t.status) ∧
  (∀ (i : Instr) (s t : State), exec i s = .next t → t.status ≠ 0 → tests t i = tests s i) ∧
  (∀ (op : Byte) (s t u : State), legalOpcode op = false → issue op s = .next t →
    ∃ v, issue op u = .next v ∧ v.status = t.status)

/-- 10_state.md R31 and 60_exceptions.md R210: after a command STATUS is 0, 1, 2, 3 or 6 (5 for a reserved opcode), so
`STATUS[7:4]` reads 0; and no host action but a write to CMD changes STATUS. -/
def Obligations.OnlyCommandsWriteStatus : Prop :=
  (∀ (op : Byte) (s t : State), issue op s = .next t → legalStatus t.status = true ∧ t.statusHigh = 0) ∧
  (∀ (e : HostEvent) (s t : State), perform e s = .next t → (∀ v, e ≠ .writeReg 0x00 v) → e ≠ .reset →
    t.status = s.status)

/-- The model's own history (log 4, after 92_eei_decisions.md D10) grows by exactly the error a command raises. -/
def Obligations.HistoryRecordsEveryFailure : Prop :=
  ∀ (op : Byte) (s t : State), issue op s = .next t →
    (t.status = 0 ∧ t.failures = s.failures) ∨ (∃ e : Err, t.status = e.code ∧ t.failures = e :: s.failures)

/-! ### Which command touches what -/

/-- 10_state.md R36, the write sets: on every outcome an item outside a command's "writes" cell and STATUS keeps its
value; bytes of XKEY at and above the new XKLEN and of DOUT outside the stated ranges read as before. -/
def Obligations.CommandsWriteOnlyTheirItems : Prop :=
  ∀ (i : Instr) (s t : State), exec i s = .next t →
    (t.keylen = s.keylen ∧ t.blklen = s.blklen ∧ t.ivlen = s.ivlen ∧ t.dlen = s.dlen ∧ t.key = s.key ∧ t.blk = s.blk ∧
      t.iv = s.iv ∧ t.din = s.din ∧ t.capBlocks = s.capBlocks ∧ t.resetCount = s.resetCount ∧ t.pending = s.pending ∧
      t.replies = s.replies) ∧
    (i ≠ .keyexpand → t.xklen = s.xklen ∧ t.xkey = s.xkey) ∧
    (i = .keyexpand → ∀ j : Fin 240, xlen s.keylen.toNat ≤ j → t.xkey[j] = s.xkey[j]) ∧
    (i ≠ .ctrcrypt → i ≠ .ctrnext → t.ctr = s.ctr) ∧
    (i ≠ .blkenc → i ≠ .blkdec → i ≠ .ctrnext → t.res = s.res) ∧
    (i ≠ .cbcenc → i ≠ .cbcdec → i ≠ .ctrcrypt → t.olen = s.olen ∧ t.dout = s.dout) ∧
    (i = .cbcenc → ∀ j, 16 * chunks s.dlen.toNat ≤ j → t.doutByte j = s.doutByte j) ∧
    (i = .cbcdec ∨ i = .ctrcrypt → ∀ j, s.dlen.toNat ≤ j → t.doutByte j = s.doutByte j)

/-- 10_state.md R36 and R38, the read sets of the mode commands: two machines that agree on what a mode command reads (the
Key, the lengths, the IV for CBC and CTR for CTRCRYPT, the input below DLEN, MAXLEN) end with the same STATUS, and where
they succeed with the same OLEN and output bytes. XKEY, XKLEN, BLK, RES, OLEN, the old DOUT, and bytes beyond a length
play no part. -/
def Obligations.ModeCommandsReadOnlyTheirItems : Prop :=
  ∀ (i : Instr) (s u s' u' : State), i = .cbcenc ∨ i = .cbcdec ∨ i = .ctrcrypt →
    s.keylen = u.keylen → s.keyArg = u.keyArg → s.dlen = u.dlen → s.maxLen = u.maxLen →
    (∀ j, j < s.dlen.toNat → s.dinByte j = u.dinByte j) →
    (i ≠ .ctrcrypt → s.ivlen = u.ivlen ∧ s.iv = u.iv) → (i = .ctrcrypt → s.ctr = u.ctr) →
    exec i s = .next s' → exec i u = .next u' →
    s'.status = u'.status ∧
    (s'.status = 0 → s'.olen = u'.olen ∧ (∀ j, j < s'.olen.toNat → s'.doutByte j = u'.doutByte j) ∧
      (i = .ctrcrypt → s'.ctr = u'.ctr))

/-- 10_state.md R36 and R38, the read sets of KEYEXPAND, BLKENC, BLKDEC and CTRNEXT, likewise. A stale XKEY is used as it is
(70_reset_and_hazards.md R244): KEY plays no part in a block command. -/
def Obligations.RegisterCommandsReadOnlyTheirItems : Prop :=
  ∀ (s u s' u' : State),
    (s.keylen = u.keylen → s.keyArg = u.keyArg → exec .keyexpand s = .next s' → exec .keyexpand u = .next u' →
      s'.status = u'.status ∧ (s'.status = 0 → s'.xklen = u'.xklen ∧ s'.xkeyArg = u'.xkeyArg)) ∧
    (∀ i, i = .blkenc ∨ i = .blkdec → s.xklen = u.xklen → s.xkeyArg = u.xkeyArg → s.blklen = u.blklen → s.blk = u.blk →
      exec i s = .next s' → exec i u = .next u' →
      s'.status = u'.status ∧ (s'.status = 0 → s'.res = u'.res)) ∧
    (s.ctr = u.ctr → exec .ctrnext s = .next s' → exec .ctrnext u = .next u' →
      s'.status = u'.status ∧ s'.res = u'.res ∧ s'.ctr = u'.ctr)

/-! ### KEYEXPAND, BLKENC, BLKDEC, CTRNEXT -/

/-- 41_key_expansion.md R130: KEYEXPAND completes for KEYLEN 16, 24, 32 with the expansion of the Key in XKEY, its length
176, 208 or 240 in XKLEN and STATUS 0, every other item and the bytes of XKEY from the new XKLEN on unchanged; any other
KEYLEN gives InvalidKeySize and changes STATUS alone. -/
def Obligations.KeyexpandExpandsKey : Prop :=
  decode 0x01 = .ok .keyexpand ∧ ∀ s : State,
    (s.keylen.toNat = 16 ∨ s.keylen.toNat = 24 ∨ s.keylen.toNat = 32 →
      ∃ (x : Vector Byte 240) (n : BitVec 8),
        exec .keyexpand s = .next { s with xkey := x, xklen := n, status := 0 } ∧
        n.toNat = (s.keylen.toNat / 4 + 7) * 16 ∧ (n.toNat = 176 ∨ n.toNat = 208 ∨ n.toNat = 240) ∧
        slice x.toList 0 n.toNat = keyExpand (slice s.key.toList 0 s.keylen.toNat) ∧
        (∀ j : Fin 240, n.toNat ≤ j → x[j] = s.xkey[j])) ∧
    (¬ (s.keylen.toNat = 16 ∨ s.keylen.toNat = 24 ∨ s.keylen.toNat = 32) →
      ∃ h, exec .keyexpand s = .next { s with status := 1, failures := h })

/-- 42_block_cipher.md R152: BLKENC completes for XKLEN 176, 208, 240 and BLKLEN 16 with Encrypt(BLK, XKEY[0 +: XKLEN]) in
RES and STATUS 0, everything else unchanged; a wrong XKLEN gives InvalidKeySize, then a wrong BLKLEN InvalidBlockSize. -/
def Obligations.BlkencEncryptsBlock : Prop :=
  decode 0x02 = .ok .blkenc ∧ ∀ s : State,
    (s.xklen.toNat = 176 ∨ s.xklen.toNat = 208 ∨ s.xklen.toNat = 240 → s.blklen.toNat = 16 →
      exec .blkenc s = .next { s with res := encrypt s.blk (slice s.xkey.toList 0 s.xklen.toNat), status := 0 }) ∧
    (¬ (s.xklen.toNat = 176 ∨ s.xklen.toNat = 208 ∨ s.xklen.toNat = 240) →
      ∃ h, exec .blkenc s = .next { s with status := 1, failures := h }) ∧
    (s.xklen.toNat = 176 ∨ s.xklen.toNat = 208 ∨ s.xklen.toNat = 240 → s.blklen.toNat ≠ 16 →
      ∃ h, exec .blkenc s = .next { s with status := 2, failures := h })

/-- 42_block_cipher.md R153: BLKDEC likewise, with Decrypt. -/
def Obligations.BlkdecDecryptsBlock : Prop :=
  decode 0x03 = .ok .blkdec ∧ ∀ s : State,
    (s.xklen.toNat = 176 ∨ s.xklen.toNat = 208 ∨ s.xklen.toNat = 240 → s.blklen.toNat = 16 →
      exec .blkdec s = .next { s with res := decrypt s.blk (slice s.xkey.toList 0 s.xklen.toNat), status := 0 }) ∧
    (¬ (s.xklen.toNat = 176 ∨ s.xklen.toNat = 208 ∨ s.xklen.toNat = 240) →
      ∃ h, exec .blkdec s = .next { s with status := 1, failures := h }) ∧
    (s.xklen.toNat = 176 ∨ s.xklen.toNat = 208 ∨ s.xklen.toNat = 240 → s.blklen.toNat ≠ 16 →
      ∃ h, exec .blkdec s = .next { s with status := 2, failures := h })

/-- 43_counter.md R173: CTRNEXT completes in every state: RES gets the old value of CTR, CTR its successor (as an integer
plus 1 mod 2^128), STATUS 0, everything else unchanged. -/
def Obligations.CtrnextReturnsThenIncrements : Prop :=
  decode 0x07 = .ok .ctrnext ∧ ∀ s : State, ∃ c : Block,
    exec .ctrnext s = .next { s with res := s.ctr, ctr := c, status := 0 } ∧
    ctrVal c = (ctrVal s.ctr + 1) % 2 ^ 128

/-- BLKDEC after BLKENC: with the result of BLKENC loaded as the block and the same expanded key, BLKDEC gives the
original block (42_block_cipher.md R151 through the two commands). -/
def Obligations.BlkdecUndoesBlkenc : Prop :=
  ∀ s t u v : State, s.ready .blkenc = true → exec .blkenc s = .next t → u = { t with blk := t.res } →
    exec .blkdec u = .next v → v.res = s.blk ∧ v.status = 0

/-! ### CBCENC, CBCDEC, CTRCRYPT -/

/-- 44_modes.md R182: CBCENC completes when its tests pass. Block `i` of DOUT is the encryption, under the expansion of KEY,
of padded chunk `i` xor the previous ciphertext block (the IV for the first); OLEN is 16 * ceil(DLEN/16); DOUT from there on
and every other item are unchanged. When a test fails, the first failing one is reported and STATUS alone changes. -/
def Obligations.CbcencChainsBlocks : Prop :=
  decode 0x04 = .ok .cbcenc ∧ ∀ s : State,
    (s.ready .cbcenc = true →
      ∃ (d : Memory) (o : BitVec 32) (t : State), t = { s with dout := d, olen := o, status := 0 } ∧
        exec .cbcenc s = .next t ∧ o.toNat = 16 * ((s.dlen.toNat + 15) / 16) ∧
        (∀ i, i < (s.dlen.toNat + 15) / 16 →
          t.doutBlock i =
            encrypt (xorV (cbcPad (s.memRead (16 * i) (min 16 (s.dlen.toNat - 16 * i))))
              (if i = 0 then s.iv else t.doutBlock (i - 1))) (keyExpand (slice s.key.toList 0 s.keylen.toNat))) ∧
        (∀ j, o.toNat ≤ j → t.doutByte j = s.doutByte j)) ∧
    (∀ e, firstError (tests s .cbcenc) = some e →
      ∃ h, exec .cbcenc s = .next { s with status := e.code, failures := h })

/-- 44_modes.md R183, the padding rule: a final chunk of `L` bytes, 1 to 15, gets `16 - L` bytes of value `16 - L`; a chunk
of 16 bytes is used as it is. -/
def Obligations.PaddingRule : Prop :=
  ∀ chunk : List Byte, 1 ≤ chunk.length → chunk.length ≤ 16 →
    (cbcPad chunk).toList =
      chunk ++ List.replicate (16 - chunk.length) (BitVec.ofNat 8 (16 - chunk.length))

/-- 44_modes.md R185: CBCDEC completes when its tests pass. Byte `j` of DOUT, below DLEN, is that of the decryption of the
zero-padded chunk `j / 16` xor the previous ciphertext chunk (the IV for the first); OLEN is DLEN; DOUT from there on and
every other item are unchanged. When a test fails, the first failing one is reported and STATUS alone changes. -/
def Obligations.CbcdecChainsBlocks : Prop :=
  decode 0x05 = .ok .cbcdec ∧ ∀ s : State,
    (s.ready .cbcdec = true →
      ∃ (d : Memory) (t : State), t = { s with dout := d, olen := s.dlen, status := 0 } ∧
        exec .cbcdec s = .next t ∧
        (∀ j, j < s.dlen.toNat →
          t.doutByte j =
            (xorV (decrypt (zpad16 (s.chunk (j / 16))) (keyExpand (slice s.key.toList 0 s.keylen.toNat)))
              (if j / 16 = 0 then s.iv else zpad16 (s.chunk (j / 16 - 1)))).toList.getD (j % 16) 0) ∧
        (∀ j, s.dlen.toNat ≤ j → t.doutByte j = s.doutByte j)) ∧
    (∀ e, firstError (tests s .cbcdec) = some e →
      ∃ h, exec .cbcdec s = .next { s with status := e.code, failures := h })

/-- 44_modes.md R188: CTRCRYPT completes when its tests pass. Byte `j` of DOUT, below DLEN, is that of DIN xor the
encryption of the counter of chunk `j / 16`, which is CTR incremented `j / 16` times; OLEN is DLEN; CTR has advanced by
ceil(DLEN/16); DOUT from DLEN on and every other item are unchanged. When a test fails, the first failing one is reported
and STATUS alone changes. -/
def Obligations.CtrcryptXorsKeystream : Prop :=
  decode 0x06 = .ok .ctrcrypt ∧ ∀ s : State,
    (s.ready .ctrcrypt = true →
      ∃ (d : Memory) (t : State),
        t = { s with dout := d, olen := s.dlen, ctr := inc128^[(s.dlen.toNat + 15) / 16] s.ctr, status := 0 } ∧
        exec .ctrcrypt s = .next t ∧
        (∀ j, j < s.dlen.toNat →
          t.doutByte j = s.dinByte j ^^^
            (encrypt (inc128^[j / 16] s.ctr) (keyExpand (slice s.key.toList 0 s.keylen.toNat))).toList.getD (j % 16) 0) ∧
        (∀ j, s.dlen.toNat ≤ j → t.doutByte j = s.doutByte j)) ∧
    (∀ e, firstError (tests s .ctrcrypt) = some e →
      ∃ h, exec .ctrcrypt s = .next { s with status := e.code, failures := h })

/-- 43_counter.md R175: the counter of chunk `i` is the 16 bytes of (val(CTR) + i) mod 2^128, and after the command CTR holds
those of (val(CTR) + n) mod 2^128. -/
def Obligations.CtrcryptCounterOffset : Prop :=
  ∀ s t : State, s.ready .ctrcrypt = true → exec .ctrcrypt s = .next t →
    ctrVal t.ctr = (ctrVal s.ctr + (s.dlen.toNat + 15) / 16) % 2 ^ 128 ∧
    (∀ (j : Nat) (C : Block), j < s.dlen.toNat → ctrVal C = (ctrVal s.ctr + j / 16) % 2 ^ 128 →
      t.doutByte j = s.dinByte j ^^^ (encrypt C (keyExpand s.keyArg)).toList.getD (j % 16) 0)

/-- 44_modes.md R187: CBCDEC of CBCENC's output, with the same key and IV, gives the plaintext followed by its pad bytes,
which are not stripped; where the plaintext length is a multiple of 16, the plaintext alone. -/
def Obligations.CbcRoundTripKeepsPadding : Prop :=
  ∀ s t u v : State, s.ready .cbcenc = true → exec .cbcenc s = .next t →
    u.keylen = s.keylen → u.keyArg = s.keyArg → u.ivlen = s.ivlen → u.iv = s.iv → u.maxLen = s.maxLen →
    u.dlen = t.olen → (∀ j, j < t.olen.toNat → u.dinByte j = t.doutByte j) →
    exec .cbcdec u = .next v →
    v.status = 0 ∧ v.olen = t.olen ∧
    (∀ j, j < s.dlen.toNat → v.doutByte j = s.dinByte j) ∧
    (∀ j, s.dlen.toNat ≤ j → j < v.olen.toNat → v.doutByte j = BitVec.ofNat 8 (16 - s.dlen.toNat % 16)) ∧
    (s.dlen.toNat % 16 = 0 → v.olen = s.dlen)

/-- 44_modes.md R190: CTRCRYPT is self-inverse, when both runs start from the same CTR and KEY and the second reads the
first's output. -/
def Obligations.CtrcryptSelfInverse : Prop :=
  ∀ s t u v : State, s.ready .ctrcrypt = true → exec .ctrcrypt s = .next t →
    u.keylen = s.keylen → u.keyArg = s.keyArg → u.ctr = s.ctr → u.maxLen = s.maxLen → u.dlen = t.olen →
    (∀ j, j < t.olen.toNat → u.dinByte j = t.doutByte j) → exec .ctrcrypt u = .next v →
    v.status = 0 ∧ v.olen = s.dlen ∧ (∀ j, j < s.dlen.toNat → v.doutByte j = s.dinByte j) ∧ v.ctr = t.ctr

/-- Empty input (44_modes.md R184 (a), R186 (a), R189 (a)): a mode command whose tests pass with DLEN = 0 sets OLEN and
STATUS to 0 and changes nothing else: no pad block, DOUT and CTR as before. -/
def Obligations.EmptyInputGivesEmptyOutput : Prop :=
  ∀ (i : Instr) (s : State), i = .cbcenc ∨ i = .cbcdec ∨ i = .ctrcrypt → s.dlen = 0 → s.ready i = true →
    exec i s = .next { s with olen := 0, status := 0 }

/-! ### The algorithms -/

/-- 40_gf_and_tables.md R105: the table multiplier is the product of the polynomials reduced modulo x^8+x^4+x^3+x+1. -/
def Obligations.GfmulIsPolynomialProduct : Prop :=
  ∀ a b : Byte, gfmul a b = gfmulBitwise a b

/-- The corner cases of 40_gf_and_tables.md R102: zero, one, and commutativity; and the sum of logarithms that reaches
508, and that of exactly 255. -/
def Obligations.GfmulCornerCases : Prop :=
  (∀ b : Byte, gfmul 0 b = 0 ∧ gfmul b 0 = 0 ∧ gfmul 1 b = b) ∧ (∀ a b : Byte, gfmul a b = gfmul b a) ∧
  gfmul 0xf6 0xf6 = 0x52 ∧ gfmul 0x02 0x8d = 0x01 ∧ gfmul 0x57 0x83 = 0xc1 ∧ gfmul 0xff 0xff = 0x13

/-- 40_gf_and_tables.md R103, R104: EXP lists the powers of the generator 0x03, and LOG is its inverse. -/
def Obligations.ExpAndLogTables : Prop :=
  expT 0 = 0x01 ∧ (∀ i : Fin 254, expT (i + 1) = gfmulBitwise (expT i) 0x03) ∧
  (∀ a : Byte, a ≠ 0 → logT a < 255 ∧ expT (logT a) = a)

/-- 40_gf_and_tables.md R107: SBOX[a] is the affine map of the multiplicative inverse of `a`, with inv(0) = 0, and every
`a` but 0 has one; SBOX is a permutation with no fixed point. -/
def Obligations.SboxConstruction : Prop :=
  (∀ a b : Byte, (a = 0 ∧ b = 0) ∨ gfmulBitwise a b = 1 →
    sbox a = b ^^^ b.rotateLeft 1 ^^^ b.rotateLeft 2 ^^^ b.rotateLeft 3 ^^^ b.rotateLeft 4 ^^^ 0x63) ∧
  (∀ a : Byte, a ≠ 0 → ∃ b, gfmulBitwise a b = 1) ∧ Function.Bijective sbox ∧ (∀ a : Byte, sbox a ≠ a)

/-- 40_gf_and_tables.md R108: INVSBOX is the inverse permutation of SBOX. -/
def Obligations.InverseSbox : Prop :=
  ∀ a : Byte, invSbox (sbox a) = a ∧ sbox (invSbox a) = a

/-- 40_gf_and_tables.md R110: INVMIX * MIX is the identity over the field, and each row is the row above rotated right. -/
def Obligations.InverseMixMatrix : Prop :=
  (∀ r c : Fin 4,
    gfmul invMixMatrix[r][(0 : Fin 4)] mixMatrix[(0 : Fin 4)][c] ^^^
    gfmul invMixMatrix[r][(1 : Fin 4)] mixMatrix[(1 : Fin 4)][c] ^^^
    gfmul invMixMatrix[r][(2 : Fin 4)] mixMatrix[(2 : Fin 4)][c] ^^^
    gfmul invMixMatrix[r][(3 : Fin 4)] mixMatrix[(3 : Fin 4)][c] = if r = c then 1 else 0) ∧
  (∀ r c : Fin 4, mixMatrix[r + 1][c + 1] = mixMatrix[r][c] ∧ invMixMatrix[r + 1][c + 1] = invMixMatrix[r][c])

/-- 42_block_cipher.md R145, R146: ShiftRows moves the byte at row `r`, column `(c + r) mod 4` to column `c`, InvShiftRows
the one at column `(c - r) mod 4`, and each undoes the other. -/
def Obligations.ShiftRowsMovesRows : Prop :=
  ∀ S : Block,
    (∀ r c : Fin 4, at4 (shiftRows S) r c = at4 S r ((c.val + r.val) % 4)) ∧
    (∀ r c : Fin 4, at4 (invShiftRows S) r c = at4 S r (c - r : Fin 4)) ∧
    invShiftRows (shiftRows S) = S ∧ shiftRows (invShiftRows S) = S

/-- 42_block_cipher.md R144, R141: InvSubBytes and SubBytes undo each other, and AddRoundKey undoes itself. -/
def Obligations.SubBytesAndRoundKeyUndone : Prop :=
  ∀ (S : Block) (X : List Byte) (i : Nat),
    invSubBytes (subBytes S) = S ∧ subBytes (invSubBytes S) = S ∧ addRoundKey (addRoundKey S X i) X i = S

/-- 42_block_cipher.md R148: InvMixColumns and MixColumns undo each other on every State. -/
def Obligations.MixColumnsUndone : Prop :=
  ∀ S : Block, invMixColumns (mixColumns S) = S ∧ mixColumns (invMixColumns S) = S

/-- 42_block_cipher.md R151: Decrypt undoes Encrypt and Encrypt undoes Decrypt, for every block and every expanded key of
176, 208 or 240 bytes, whether or not it came from KeyExpand. -/
def Obligations.DecryptUndoesEncrypt : Prop :=
  ∀ (B : Block) (X : List Byte), X.length = 176 ∨ X.length = 208 ∨ X.length = 240 →
    decrypt (encrypt B X) X = B ∧ encrypt (decrypt B X) X = B

/-- 41_key_expansion.md R120: the ExpandedKey of a Key of `k` bytes has exactly (k/4 + 7) * 16 bytes and begins with the
Key itself. -/
def Obligations.KeyExpandContract : Prop :=
  ∀ key : List Byte, key.length = 16 ∨ key.length = 24 ∨ key.length = 32 →
    (keyExpand key).length = (key.length / 4 + 7) * 16 ∧ slice (keyExpand key) 0 key.length = key

/-- 41_key_expansion.md R124, R125, R126: the generic form is, for each key size, the schedule unrolled into its groups. -/
def Obligations.KeyExpandUnrolled : Prop :=
  ∀ key : List Byte,
    (key.length = 16 → keyExpand key = expand128 key) ∧
    (key.length = 24 → keyExpand key = expand192 key) ∧
    (key.length = 32 → keyExpand key = expand256 key)

/-- 41_key_expansion.md R131: the generic form is the word recurrence. -/
def Obligations.KeyExpandWordRecurrence : Prop :=
  ∀ key : List Byte, key.length = 16 ∨ key.length = 24 ∨ key.length = 32 →
    keyExpand key = (recurrenceWords key (xlen key.length / 4)).flatMap Vector.toList

/-- 43_counter.md R174: Inc128 adds one to the big-endian integer, mod 2^128. -/
def Obligations.IncrementAddsOne : Prop :=
  ∀ C : Block, ctrVal (inc128 C) = (ctrVal C + 1) % 2 ^ 128

/-- The 128-bit known answer of 42_block_cipher.md R154: the all-zero block under the all-zero key. -/
def Obligations.KnownAnswerZeroKey : Prop :=
  encrypt (Vector.replicate 16 0) (keyExpand (List.replicate 16 0)) =
    #v[0x66, 0xe9, 0x4b, 0xd4, 0xef, 0x8a, 0x2c, 0x3b, 0x88, 0x4c, 0xfa, 0x59, 0xca, 0x34, 0x2b, 0x2e]

/-! ### The host and reset -/

/-- The host's moves are those of 20_memory.md R56 with the access rights of 10_state.md R20: exactly the well-formed ones
are performed, every other one is refused (log 9). -/
def Obligations.HostMovesAreThoseOfTheList : Prop :=
  ∀ (e : HostEvent) (s : State),
    (e.wellFormed s.maxLen = true → ∃ t, perform e s = .next t) ∧
    (e.wellFormed s.maxLen = false → ∃ r, perform e s = .refused r)

/-- A host read gives the host the value and "has no side effect on any state" (20_memory.md R59): a scalar as one integer,
a byte of a buffer below its capacity. The list of values read is the model's (log 3). -/
def Obligations.HostReadsLeaveEngineAlone : Prop :=
  ∀ (it : Item) (s : State),
    (∀ v, s.scalar it = some v → perform (.readReg it.id) s = .next { s with replies := s.replies ++ [.scalar v] }) ∧
    (∀ j b, s.bufferByte it j = some b →
      perform (.readByte it.id j) s = .next { s with replies := s.replies ++ [.byte b] })

/-- 10_state.md R30: a host write to KEYLEN, XKLEN, BLKLEN, IVLEN or DLEN stores the value written, whatever it is, and a
read returns it; nothing else changes. -/
def Obligations.LengthRegistersArePlainStorage : Prop :=
  ∀ (it : Item) (v : Nat) (s : State), it = .keylen ∨ it = .xklen ∨ it = .blklen ∨ it = .ivlen ∨ it = .dlen →
    v < (if it = .dlen then 2 ^ 32 else 2 ^ 8) →
    ∃ t, perform (.writeReg it.id v) s = .next t ∧ t.scalar it = some v ∧
      (∀ other, other ≠ it → t.scalar other = s.scalar other) ∧
      (∀ buf j, t.bufferByte buf j = s.bufferByte buf j)

/-- `HostWriteByte` (20_memory.md R56) on a writable buffer: the byte at the index holds the value written, every other byte
of every buffer and every scalar is as before. A host write to KEY does not change XKEY (R65). -/
def Obligations.HostByteWritesAreLocal : Prop :=
  ∀ (it : Item) (j c : Nat) (b : Byte) (s : State), it.hostWrites = true → it.capacity s.maxLen = some c → j < c →
    ∃ t, perform (.writeByte it.id j b) s = .next t ∧ t.bufferByte it j = some b ∧
      (∀ buf k, ¬ (buf = it ∧ k = j) → t.bufferByte buf k = s.bufferByte buf k) ∧
      (∀ r, t.scalar r = s.scalar r)

/-- 10_state.md R37 and 70_reset_and_hazards.md R240: in the state after reset, the machine's first and the one a reset
leaves, every scalar is 0 and every byte of KEY, XKEY, BLK, IV, CTR and RES is 0x00; no byte of DIN or DOUT keeps a written
value. Every state has a reset. What it keeps is the host's and the capacity (logs 5, 10). -/
def Obligations.ResetValues : Prop :=
  (∀ t : State, t = State.reset ∨ (∃ s, perform .reset s = .next t) →
    (∀ it v, t.scalar it = some v → v = 0) ∧
    (∀ it j b, t.bufferByte it j = some b → it ≠ .din → it ≠ .dout → b = 0) ∧
    (∀ j, t.din.read? j = none ∧ t.dout.read? j = none)) ∧
  (∀ s : State, ∃ t, perform .reset s = .next t ∧ t.maxLen = s.maxLen ∧ t.pending = s.pending)

/-- The consequences 10_state.md R37 names: immediately after reset every command except CTRNEXT fails with a size error,
InvalidKeySize, and CTRNEXT returns the all-zero counter value. -/
def Obligations.AfterResetOnlyCtrnextSucceeds : Prop :=
  ∀ s t : State, perform .reset s = .next t →
    (∀ i, i ≠ .ctrnext → ∃ h, exec i t = .next { t with status := 1, failures := h }) ∧
    (∃ u, exec .ctrnext t = .next u ∧ u.status = 0 ∧ u.res = Vector.replicate 16 0 ∧ ctrVal u.ctr = 1)

/-- LOAD (30_encoding.md R76): a well-formed line leaves the bytes at the first indices of the buffer, the buffer's other
bytes as before, the number of bytes in the length register where the buffer has one, and everything else as before. -/
def Obligations.LoadFillsBufferAndLength : Prop :=
  ∀ (b : Item) (bytes : List Byte) (s : State), (HostLine.load b bytes).wellFormed s.maxLen = true →
    ∃ t, runLines [.load b bytes] s = .next t ∧
      (∀ j, j < bytes.length → t.bufferByte b j = bytes[j]?) ∧
      (∀ buf j, ¬ (buf = b ∧ j < bytes.length) → t.bufferByte buf j = s.bufferByte buf j) ∧
      (∀ r, b.lengthReg = some r → t.scalar r = some bytes.length) ∧
      (∀ r, b.lengthReg ≠ some r → t.scalar r = s.scalar r)

/-! ### Password text -/

/-- 45_password_text.md R203: the raw key material is the first bytes of the password, at most `ks`, then zeros, exactly
`ks` bytes. -/
def Obligations.RawKeyTruncatesAndPads : Prop :=
  ∀ (pw : List Byte) (ks : Nat),
    (rawKey pw ks).length = ks ∧
    (∀ j, j < ks → (rawKey pw ks).getD j 0 = if j < pw.length then pw.getD j 0 else 0)

/-- The host's own checks (45_password_text.md R202; 95_test_vectors.md V9.7): a base64 text that does not decode is
DecodeError, a key size other than 16, 24, 32 InvalidKeySize, a payload shorter than 8 bytes DecodeError; no command is
issued and the engine is untouched. The order of the checks is that of R207's lines (log 13). -/
def Obligations.PasswordTextChecks : Prop :=
  ∀ (s : State) (payload pw : List Byte) (ks : Nat),
    decryptPwText none pw ks s = .error .decodeError s ∧
    (¬ (ks = 16 ∨ ks = 24 ∨ ks = 32) → decryptPwText (some payload) pw ks s = .error .invalidKeySize s) ∧
    (ks = 16 ∨ ks = 24 ∨ ks = 32 → payload.length < 8 → decryptPwText (some payload) pw ks s = .error .decodeError s)

/-- 45_password_text.md R204, R205, R206, R207: for a legal key size, a payload of at least 8 bytes and a ciphertext that
fits DIN, the procedure gives back the ciphertext xor the keystream of the effective key from the counter value
nonce ++ 8 zero bytes; its length is len(payload) - 8; it leaves the effective key in KEY, the derivation's expanded key in
XKEY, E in RES, and CTR advanced by ceil((len(payload) - 8) / 16). -/
def Obligations.PasswordTextDecrypts : Prop :=
  ∀ (s : State) (payload pw : List Byte) (ks : Nat), ks = 16 ∨ ks = 24 ∨ ks = 32 → 8 ≤ payload.length →
    payload.length - 8 ≤ s.maxLen →
    ∃ (out : List Byte) (t : State), decryptPwText (some payload) pw ks s = .plaintext out t ∧
      out.length = payload.length - 8 ∧
      (∀ j, j < payload.length - 8 →
        out.getD j 0 = payload.getD (8 + j) 0 ^^^
          (encrypt (inc128^[j / 16] (zpad16 (counterStart payload))) (keyExpand (effectiveKey pw ks))).toList.getD (j % 16) 0) ∧
      t.keyArg = effectiveKey pw ks ∧ t.xkeyArg = keyExpand (rawKey pw ks) ∧
      tile t.res.toList ks = effectiveKey pw ks ∧
      t.ctr = inc128^[(payload.length - 8 + 15) / 16] (zpad16 (counterStart payload))

/-- 45_password_text.md R207: with the host's checks passed, a ciphertext longer than MAXLEN ends the procedure in
DataTooLong, the error of its CTRCRYPT. That the host then loads the bytes DIN has room for and the whole length is the
model's choice (log 14), which has a DLEN for lengths below 2^32 only. -/
def Obligations.PasswordTextTooLong : Prop :=
  ∀ (s : State) (payload pw : List Byte) (ks : Nat), ks = 16 ∨ ks = 24 ∨ ks = 32 →
    s.maxLen < payload.length - 8 → payload.length - 8 < 2 ^ 32 →
    ∃ t : State, decryptPwText (some payload) pw ks s = .error .dataTooLong t ∧ t.status = 6 ∧ t.dout = s.dout

/-- 45_password_text.md R205 with 90_conflicts.md C4: one tile for key sizes 16 and 24, two for 32, so the effective key has
16, 16 or 32 bytes, a legal Key. -/
def Obligations.EffectiveKeyLength : Prop :=
  ∀ (pw : List Byte) (ks : Nat), ks = 16 ∨ ks = 24 ∨ ks = 32 →
    (effectiveKey pw ks).length = (if ks = 32 then 32 else 16)
end

