-- ==== Sys2Proof/Laws/Bytes.lean ====
section
/-! SUPPORT. The laws of byte sequences and of the operands read from registers (00_scope.md R12, R15; 30_encoding.md R72). -/

namespace Sys2Proof.Machine

@[simp] theorem length_slice (s : List Byte) (a n : Nat) : (slice s a n).length = min n (s.length - a) := by
  simp [slice]

theorem getElem?_slice (s : List Byte) (a n j : Nat) : (slice s a n)[j]? = if j < n then s[a + j]? else none := by
  simp only [slice, List.getElem?_take, List.getElem?_drop]

theorem getD_slice (s : List Byte) {a n j : Nat} (h : j < n) : (slice s a n).getD j 0 = s.getD (a + j) 0 := by
  simp [List.getD, getElem?_slice, h]

@[simp] theorem getElem_xorV {n : Nat} (s t : Vector Byte n) (j : Nat) (h : j < n) : (xorV s t)[j] = s[j] ^^^ t[j] := by
  simp [xorV]

@[simp] theorem getElem_fillBlock (fill : Byte) (s : List Byte) (j : Nat) (h : j < 16) :
    (fillBlock fill s)[j] = s.getD j fill := by
  simp [fillBlock]

@[simp] theorem getElem_zpad16 (s : List Byte) (j : Nat) (h : j < 16) : (zpad16 s)[j] = s.getD j 0 := by
  simp [zpad16]

@[simp] theorem getElem_wordAt (s : List Byte) (a j : Nat) (h : j < 4) : (wordAt s a)[j] = s.getD (a + j) 0 := by
  simp [wordAt]

/-- `v[a +: len(s)] <- s`: the bytes of `s` inside, as before outside. -/
theorem getElem_overwrite {n : Nat} (v : Vector Byte n) (a : Nat) (s : List Byte) (j : Nat) (h : j < n) :
    (overwrite v a s)[j] = if a ≤ j ∧ j < a + s.length then s.getD (j - a) 0 else v[j] := by
  simp [overwrite]

theorem xorV_comm {n : Nat} (s t : Vector Byte n) : xorV s t = xorV t s := by
  ext j hj; simp [BitVec.xor_comm]

theorem xorV_assoc {n : Nat} (s t u : Vector Byte n) : xorV (xorV s t) u = xorV s (xorV t u) := by
  ext j hj; simp [BitVec.xor_assoc]

/-- Exclusive-or undoes itself. -/
@[simp] theorem xorV_cancel {n : Nat} (s t : Vector Byte n) : xorV (xorV s t) t = s := by
  ext j hj; simp

@[simp] theorem length_memRead (s : State) (a n : Nat) : (s.memRead a n).length = n := by
  simp [State.memRead]

theorem getD_memRead (s : State) (a : Nat) {n j : Nat} (fill : Byte) (h : j < n) :
    (s.memRead a n).getD j fill = s.dinByte (a + j) := by
  simp [State.memRead, List.getD, h]

@[simp] theorem length_chunk (s : State) (i : Nat) : (s.chunk i).length = chunkLen s.dlen.toNat i := by
  simp [State.chunk]

theorem getD_chunk (s : State) (i : Nat) {j : Nat} (fill : Byte) (h : j < chunkLen s.dlen.toNat i) :
    (s.chunk i).getD j fill = s.dinByte (16 * i + j) :=
  getD_memRead s _ fill h

theorem chunkLen_le (len i : Nat) : chunkLen len i ≤ 16 := Nat.min_le_left ..

/-- Byte `j` of the input lies in chunk `j / 16`. -/
theorem mod_lt_chunkLen {len j : Nat} (h : j < len) : j % 16 < chunkLen len (j / 16) := by
  unfold chunkLen; omega

theorem div_lt_chunks {len j : Nat} (h : j < len) : j / 16 < chunks len := by
  unfold chunks; omega

/-- MAXLEN is a positive multiple of 16 below 2^32 (00_scope.md R9). -/
theorem maxLen_legal (s : State) : 0 < s.maxLen ∧ s.maxLen % 16 = 0 ∧ s.maxLen ≤ 2 ^ 32 - 16 := by
  have := s.capBlocks.isLt
  unfold State.maxLen
  omega

/-- A CBCENC output of a legal input fits DOUT, since MAXLEN is a multiple of 16 (44_modes.md R182). -/
theorem chunks_fit {s : State} {len : Nat} (h : len ≤ s.maxLen) : 16 * chunks len ≤ s.maxLen := by
  have := maxLen_legal s
  unfold chunks
  omega

theorem length_keyArg (s : State) (h : s.keylen.toNat ≤ 32) : s.keyArg.length = s.keylen.toNat := by
  simp [State.keyArg]; omega

theorem length_xkeyArg (s : State) (h : s.xklen.toNat ≤ 240) : s.xkeyArg.length = s.xklen.toNat := by
  simp [State.xkeyArg]; omega

theorem legalKeyLen_iff {k : Nat} : legalKeyLen k = true ↔ k = 16 ∨ k = 24 ∨ k = 32 := by
  simp [legalKeyLen, or_assoc]

theorem legalXkLen_iff {n : Nat} : legalXkLen n = true ↔ n = 176 ∨ n = 208 ∨ n = 240 := by
  simp [legalXkLen, or_assoc]

/-- The Key a command uses has the legal length its KEYLEN says. -/
theorem length_keyArg_of_legal {s : State} (h : legalKeyLen s.keylen.toNat = true) :
    s.keyArg.length = s.keylen.toNat := by
  rw [legalKeyLen_iff] at h
  exact length_keyArg s (by omega)

/-- The ExpandedKey a block command uses has the legal length its XKLEN says. -/
theorem length_xkeyArg_of_legal {s : State} (h : legalXkLen s.xklen.toNat = true) :
    s.xkeyArg.length = s.xklen.toNat := by
  rw [legalXkLen_iff] at h
  exact length_xkeyArg s (by omega)

end Sys2Proof.Machine
end

