-- ==== Sys2Proof/Laws/Memory.lean ====
section
/-! SUPPORT. The laws of the data buffers: read after write, and the canonical form (log 7). -/

namespace Sys2Proof.Machine

namespace Memory

theorem read?_write (m : Memory) (j : Nat) (b : Byte) (i : Nat) :
    (m.write j b).read? i = if i = j then some b else m.read? i := by
  induction m with
  | nil => simp [write, read?]
  | cons c m ih =>
    obtain ⟨k, c⟩ := c
    simp only [write]
    split
    · simp only [read?]
    · split
      · next _ h => subst h; by_cases hi : i = j <;> simp [read?, hi]
      · next hlt hne =>
        simp only [read?, ih]
        by_cases hi : i = k
        · subst hi; simp [show i ≠ j from fun h => hne h.symm]
        · simp [hi]

@[simp] theorem read?_write_same (m : Memory) (j : Nat) (b : Byte) : (m.write j b).read? j = some b := by
  simp [read?_write]

theorem read?_write_other (m : Memory) {i j : Nat} (b : Byte) (h : i ≠ j) : (m.write j b).read? i = m.read? i := by
  simp [read?_write, h]

/-- After a sequence is stored from `a`, the indices `a .. a + len - 1` hold it and every other index is as before. -/
theorem read?_writeSeq (v : List Byte) : ∀ (m : Memory) (a i : Nat),
    (m.writeSeq a v).read? i = if a ≤ i ∧ i < a + v.length then v[i - a]? else m.read? i := by
  induction v with
  | nil => intro m a i; simp [writeSeq]
  | cons b bs ih =>
    intro m a i
    simp only [writeSeq, ih, read?_write, List.length_cons]
    by_cases h1 : i = a
    · subst h1; simp
    · by_cases h2 : a ≤ i ∧ i < a + (bs.length + 1)
      · have h3 : a + 1 ≤ i ∧ i < a + 1 + bs.length := by omega
        have h4 : i - a = (i - (a + 1)) + 1 := by omega
        simp [h2, h3, h4]
      · have h3 : ¬ (a + 1 ≤ i ∧ i < a + 1 + bs.length) := by omega
        rw [if_neg h3, if_neg h2, if_neg h1]

theorem wfFrom_mono {lo lo' cap : Nat} (h : lo ≤ lo') {m : Memory} (hw : wfFrom lo' cap m = true) :
    wfFrom lo cap m = true := by
  cases m with
  | nil => rfl
  | cons c m =>
    simp only [wfFrom, Bool.and_eq_true, decide_eq_true_eq] at hw ⊢
    exact ⟨⟨by omega, hw.1.2⟩, hw.2⟩

theorem wfFrom_write {lo cap j : Nat} {b : Byte} {m : Memory} (hl : lo ≤ j) (hj : j < cap)
    (hw : wfFrom lo cap m = true) : wfFrom lo cap (m.write j b) = true := by
  induction m generalizing lo with
  | nil => simp [write, wfFrom, hl, hj]
  | cons c m ih =>
    obtain ⟨k, c⟩ := c
    simp only [wfFrom, Bool.and_eq_true, decide_eq_true_eq] at hw
    simp only [write]
    split
    · simp only [wfFrom, Bool.and_eq_true, decide_eq_true_eq]
      exact ⟨⟨hl, hj⟩, ⟨by omega, hw.1.2⟩, hw.2⟩
    · split
      · next _ h => subst h; simpa [wfFrom, hl, hj] using hw.2
      · simp only [wfFrom, Bool.and_eq_true, decide_eq_true_eq]
        exact ⟨hw.1, ih (by omega) hw.2⟩

/-- A write below the capacity keeps the canonical form. -/
theorem wf_write {cap j : Nat} {b : Byte} {m : Memory} (hj : j < cap) (hw : m.wf cap = true) :
    (m.write j b).wf cap = true :=
  wfFrom_write (Nat.zero_le j) hj hw

/-- Storing a sequence that ends below the capacity keeps the canonical form. -/
theorem wf_writeSeq {cap : Nat} (v : List Byte) : ∀ {m : Memory} {a : Nat}, a + v.length ≤ cap → m.wf cap = true →
    (m.writeSeq a v).wf cap = true := by
  induction v with
  | nil => intro m a _ hw; exact hw
  | cons b bs ih =>
    intro m a ha hw
    simp only [List.length_cons] at ha
    exact ih (by omega) (wf_write (by omega) hw)

@[simp] theorem wf_nil (cap : Nat) : Memory.wf cap [] = true := rfl

theorem read?_eq_none_of_lt {lo cap i : Nat} {m : Memory} (hw : wfFrom lo cap m = true) (h : i < lo) :
    m.read? i = none := by
  induction m generalizing lo with
  | nil => rfl
  | cons c m ih =>
    obtain ⟨k, c⟩ := c
    simp only [wfFrom, Bool.and_eq_true, decide_eq_true_eq] at hw
    simp only [read?]
    rw [if_neg (by omega)]
    exact ih hw.2 (by omega)

/-- Two buffers in canonical form that read alike everywhere are the same data. -/
theorem ext_of_wfFrom {cap : Nat} {m n : Memory} {lo : Nat} (hm : wfFrom lo cap m = true) (hn : wfFrom lo cap n = true)
    (h : ∀ i, m.read? i = n.read? i) : m = n := by
  induction m generalizing n lo with
  | nil =>
    cases n with
    | nil => rfl
    | cons c n => exact absurd (h c.1) (by simp [read?])
  | cons c m ih =>
    obtain ⟨k, c⟩ := c
    cases n with
    | nil => exact absurd (h k) (by simp [read?])
    | cons d n =>
      obtain ⟨l, d⟩ := d
      simp only [wfFrom, Bool.and_eq_true, decide_eq_true_eq] at hm hn
      have hkl : k = l := by
        rcases Nat.lt_trichotomy k l with hlt | heq | hgt
        · have := h k
          simp only [read?, if_true, if_neg (show k ≠ l by omega)] at this
          rw [read?_eq_none_of_lt hn.2 (by omega)] at this
          cases this
        · exact heq
        · have := h l
          simp only [read?, if_true, if_neg (show l ≠ k by omega)] at this
          rw [read?_eq_none_of_lt hm.2 (by omega)] at this
          cases this
      subst hkl
      have hcd : c = d := by simpa [read?] using h k
      subst hcd
      congr 1
      refine ih hm.2 hn.2 fun i => ?_
      by_cases hi : i = k
      · subst hi
        rw [read?_eq_none_of_lt hm.2 (by omega), read?_eq_none_of_lt hn.2 (by omega)]
      · simpa [read?, hi] using h i

/-- The canonical form is canonical: equal readings are equal data (log 7). -/
theorem ext_of_wf {cap : Nat} {m n : Memory} (hm : m.wf cap = true) (hn : n.wf cap = true)
    (h : ∀ i, m.read? i = n.read? i) : m = n :=
  ext_of_wfFrom hm hn h

end Memory

/-- `DOUT[j]` after `MemWrite(a, len(v), v)`: the stored byte inside, as before outside. -/
theorem memWrite_doutByte (s : State) (a : Nat) (v : List Byte) (j : Nat) :
    (s.memWrite a v).doutByte j = if a ≤ j ∧ j < a + v.length then v.getD (j - a) 0 else s.doutByte j := by
  unfold State.doutByte State.memWrite
  simp only [Memory.read?_writeSeq]
  split
  · next h =>
    have : j - a < v.length := by omega
    simp [List.getD, List.getElem?_eq_getElem this]
  · rfl

end Sys2Proof.Machine
end

