-- ==== Sys2Proof/Laws/State.lean ====
section
/-! SUPPORT. One lemma per field per named update of State, so that no later proof unfolds a record update. -/

namespace Sys2Proof.Machine

/-! ### `MemWrite` touches DOUT alone (00_scope.md R15) -/

@[simp] theorem memWrite_status (s : State) (a : Nat) (v : List Byte) : (s.memWrite a v).status = s.status := rfl
@[simp] theorem memWrite_keylen (s : State) (a : Nat) (v : List Byte) : (s.memWrite a v).keylen = s.keylen := rfl
@[simp] theorem memWrite_xklen (s : State) (a : Nat) (v : List Byte) : (s.memWrite a v).xklen = s.xklen := rfl
@[simp] theorem memWrite_blklen (s : State) (a : Nat) (v : List Byte) : (s.memWrite a v).blklen = s.blklen := rfl
@[simp] theorem memWrite_ivlen (s : State) (a : Nat) (v : List Byte) : (s.memWrite a v).ivlen = s.ivlen := rfl
@[simp] theorem memWrite_dlen (s : State) (a : Nat) (v : List Byte) : (s.memWrite a v).dlen = s.dlen := rfl
@[simp] theorem memWrite_olen (s : State) (a : Nat) (v : List Byte) : (s.memWrite a v).olen = s.olen := rfl
@[simp] theorem memWrite_key (s : State) (a : Nat) (v : List Byte) : (s.memWrite a v).key = s.key := rfl
@[simp] theorem memWrite_xkey (s : State) (a : Nat) (v : List Byte) : (s.memWrite a v).xkey = s.xkey := rfl
@[simp] theorem memWrite_blk (s : State) (a : Nat) (v : List Byte) : (s.memWrite a v).blk = s.blk := rfl
@[simp] theorem memWrite_iv (s : State) (a : Nat) (v : List Byte) : (s.memWrite a v).iv = s.iv := rfl
@[simp] theorem memWrite_ctr (s : State) (a : Nat) (v : List Byte) : (s.memWrite a v).ctr = s.ctr := rfl
@[simp] theorem memWrite_res (s : State) (a : Nat) (v : List Byte) : (s.memWrite a v).res = s.res := rfl
@[simp] theorem memWrite_din (s : State) (a : Nat) (v : List Byte) : (s.memWrite a v).din = s.din := rfl
@[simp] theorem memWrite_dout (s : State) (a : Nat) (v : List Byte) :
    (s.memWrite a v).dout = s.dout.writeSeq a v := rfl
@[simp] theorem memWrite_capBlocks (s : State) (a : Nat) (v : List Byte) : (s.memWrite a v).capBlocks = s.capBlocks := rfl
@[simp] theorem memWrite_resetCount (s : State) (a : Nat) (v : List Byte) : (s.memWrite a v).resetCount = s.resetCount := rfl
@[simp] theorem memWrite_pending (s : State) (a : Nat) (v : List Byte) : (s.memWrite a v).pending = s.pending := rfl
@[simp] theorem memWrite_replies (s : State) (a : Nat) (v : List Byte) : (s.memWrite a v).replies = s.replies := rfl
@[simp] theorem memWrite_failures (s : State) (a : Nat) (v : List Byte) : (s.memWrite a v).failures = s.failures := rfl
@[simp] theorem memWrite_maxLen (s : State) (a : Nat) (v : List Byte) : (s.memWrite a v).maxLen = s.maxLen := rfl
@[simp] theorem memWrite_dinByte (s : State) (a : Nat) (v : List Byte) (j : Nat) :
    (s.memWrite a v).dinByte j = s.dinByte j := rfl
@[simp] theorem memWrite_memRead (s : State) (a : Nat) (v : List Byte) (b n : Nat) :
    (s.memWrite a v).memRead b n = s.memRead b n := rfl
@[simp] theorem memWrite_chunk (s : State) (a : Nat) (v : List Byte) (i : Nat) :
    (s.memWrite a v).chunk i = s.chunk i := rfl

/-! ### `Next` touches CTR alone (43_counter.md R172) -/

@[simp] theorem next_fst (s : State) : s.next.1 = s.ctr := rfl
@[simp] theorem next_status (s : State) : s.next.2.status = s.status := rfl
@[simp] theorem next_keylen (s : State) : s.next.2.keylen = s.keylen := rfl
@[simp] theorem next_xklen (s : State) : s.next.2.xklen = s.xklen := rfl
@[simp] theorem next_blklen (s : State) : s.next.2.blklen = s.blklen := rfl
@[simp] theorem next_ivlen (s : State) : s.next.2.ivlen = s.ivlen := rfl
@[simp] theorem next_dlen (s : State) : s.next.2.dlen = s.dlen := rfl
@[simp] theorem next_olen (s : State) : s.next.2.olen = s.olen := rfl
@[simp] theorem next_key (s : State) : s.next.2.key = s.key := rfl
@[simp] theorem next_xkey (s : State) : s.next.2.xkey = s.xkey := rfl
@[simp] theorem next_blk (s : State) : s.next.2.blk = s.blk := rfl
@[simp] theorem next_iv (s : State) : s.next.2.iv = s.iv := rfl
@[simp] theorem next_ctr (s : State) : s.next.2.ctr = inc128 s.ctr := rfl
@[simp] theorem next_res (s : State) : s.next.2.res = s.res := rfl
@[simp] theorem next_din (s : State) : s.next.2.din = s.din := rfl
@[simp] theorem next_dout (s : State) : s.next.2.dout = s.dout := rfl
@[simp] theorem next_capBlocks (s : State) : s.next.2.capBlocks = s.capBlocks := rfl
@[simp] theorem next_resetCount (s : State) : s.next.2.resetCount = s.resetCount := rfl
@[simp] theorem next_pending (s : State) : s.next.2.pending = s.pending := rfl
@[simp] theorem next_replies (s : State) : s.next.2.replies = s.replies := rfl
@[simp] theorem next_failures (s : State) : s.next.2.failures = s.failures := rfl
@[simp] theorem next_maxLen (s : State) : s.next.2.maxLen = s.maxLen := rfl
@[simp] theorem next_dinByte (s : State) (j : Nat) : s.next.2.dinByte j = s.dinByte j := rfl
@[simp] theorem next_doutByte (s : State) (j : Nat) : s.next.2.doutByte j = s.doutByte j := rfl
@[simp] theorem next_chunk (s : State) (i : Nat) : s.next.2.chunk i = s.chunk i := rfl

/-! ### Reset puts every item of 10_state.md R20 to its value and keeps what is the host's (R240) -/

@[simp] theorem afterReset_status (s : State) : s.afterReset.status = 0 := rfl
@[simp] theorem afterReset_keylen (s : State) : s.afterReset.keylen = 0 := rfl
@[simp] theorem afterReset_xklen (s : State) : s.afterReset.xklen = 0 := rfl
@[simp] theorem afterReset_blklen (s : State) : s.afterReset.blklen = 0 := rfl
@[simp] theorem afterReset_ivlen (s : State) : s.afterReset.ivlen = 0 := rfl
@[simp] theorem afterReset_dlen (s : State) : s.afterReset.dlen = 0 := rfl
@[simp] theorem afterReset_olen (s : State) : s.afterReset.olen = 0 := rfl
@[simp] theorem afterReset_key (s : State) : s.afterReset.key = Vector.replicate 32 0 := rfl
@[simp] theorem afterReset_xkey (s : State) : s.afterReset.xkey = Vector.replicate 240 0 := rfl
@[simp] theorem afterReset_blk (s : State) : s.afterReset.blk = Vector.replicate 16 0 := rfl
@[simp] theorem afterReset_iv (s : State) : s.afterReset.iv = Vector.replicate 16 0 := rfl
@[simp] theorem afterReset_ctr (s : State) : s.afterReset.ctr = Vector.replicate 16 0 := rfl
@[simp] theorem afterReset_res (s : State) : s.afterReset.res = Vector.replicate 16 0 := rfl
@[simp] theorem afterReset_din (s : State) : s.afterReset.din = [] := rfl
@[simp] theorem afterReset_dout (s : State) : s.afterReset.dout = [] := rfl
@[simp] theorem afterReset_capBlocks (s : State) : s.afterReset.capBlocks = s.capBlocks := rfl
@[simp] theorem afterReset_resetCount (s : State) : s.afterReset.resetCount = s.resetCount + 1 := rfl
@[simp] theorem afterReset_pending (s : State) : s.afterReset.pending = s.pending := rfl
@[simp] theorem afterReset_replies (s : State) : s.afterReset.replies = s.replies := rfl
@[simp] theorem afterReset_failures (s : State) : s.afterReset.failures = s.failures := rfl
@[simp] theorem afterReset_maxLen (s : State) : s.afterReset.maxLen = s.maxLen := rfl

end Sys2Proof.Machine
end

