-- ==== Sys2Proof/Laws/Commands.lean ====
section
/-! SUPPORT. What each command can do, said once: the two outcomes of 00_scope.md R18, and the loops of the mode commands
as their effect on DOUT, CTR and the chaining value. -/

namespace Sys2Proof.Machine

theorem raise_eq (e : Err) (s : State) :
    s.raise e = .next { s with status := e.code, failures := e :: s.failures } := rfl

theorem succeed_eq (s : State) : s.succeed = .next { s with status := 0 } := rfl

/-! ### Which error -/

/-- The tests of BLKENC and BLKDEC: all pass, or the first that fails names the error. -/
theorem blockError_cases (s : State) :
    (legalXkLen s.xklen.toNat = false ∧ blockError s = some .invalidKeySize) ∨
    (legalXkLen s.xklen.toNat = true ∧ s.blklen.toNat ≠ 16 ∧ blockError s = some .invalidBlockSize) ∨
    (legalXkLen s.xklen.toNat = true ∧ s.blklen.toNat = 16 ∧ blockError s = none) := by
  unfold blockError
  cases h : legalXkLen s.xklen.toNat <;> by_cases h2 : s.blklen.toNat = 16 <;> simp [h2]

/-- The tests of a mode command: all pass, or the first that fails names the error. -/
theorem modeError_cases (usesIv : Bool) (s : State) :
    (legalKeyLen s.keylen.toNat = false ∧ modeError usesIv s = some .invalidKeySize) ∨
    (legalKeyLen s.keylen.toNat = true ∧ (usesIv = true ∧ s.ivlen.toNat ≠ 16) ∧
      modeError usesIv s = some .invalidIvSize) ∨
    (legalKeyLen s.keylen.toNat = true ∧ ¬ (usesIv = true ∧ s.ivlen.toNat ≠ 16) ∧ s.maxLen < s.dlen.toNat ∧
      modeError usesIv s = some .dataTooLong) ∨
    (legalKeyLen s.keylen.toNat = true ∧ ¬ (usesIv = true ∧ s.ivlen.toNat ≠ 16) ∧ s.dlen.toNat ≤ s.maxLen ∧
      modeError usesIv s = none) := by
  unfold modeError
  cases h : legalKeyLen s.keylen.toNat
  · simp
  · by_cases h2 : usesIv = true ∧ s.ivlen.toNat ≠ 16
    · simp [h2]
    · by_cases h3 : s.maxLen < s.dlen.toNat
      · simp [h2, h3]
      · simp [h2, h3, Nat.not_lt.mp h3]

/-! ### The loops -/

/-- The ciphertext blocks of CBC encryption, `Enc(P_i xor C_(i-1))` with the IV before the first (44_modes.md R182). -/
def cbcBlocks (X : List Byte) (P : Nat → Block) (iv : Block) : Nat → Block
  | 0 => iv
  | i + 1 => encrypt (xorV (P i) (cbcBlocks X P iv i)) X

/-- CBCENC's loop after `n` chunks: `prev` is ciphertext block `n - 1`, or the IV. -/
theorem cbcenc_loop_prev (X : List Byte) (s : State) (iv : Block) (n : Nat) :
    ((List.range n).foldl (cbcencChunk X) (s, iv)).2 = cbcBlocks X (fun i => cbcPad (s.chunk i)) iv n ∧
    ∃ d, ((List.range n).foldl (cbcencChunk X) (s, iv)).1 = { s with dout := d } := by
  induction n with
  | zero => exact ⟨rfl, s.dout, rfl⟩
  | succ n ih =>
    obtain ⟨h1, d, h2⟩ := ih
    simp only [List.range_succ, List.foldl_append, List.foldl_cons, List.foldl_nil]
    have hc : ∀ d, State.chunk { s with dout := d } = s.chunk := fun _ => rfl
    constructor
    · simp [cbcencChunk, h1, h2, hc, cbcBlocks]
    · exact ⟨_, by simp [cbcencChunk, h2, State.memWrite]; rfl⟩

/-- CBCENC's loop after `n` chunks: DOUT holds the ciphertext blocks below `16 * n` and is as before from there on. -/
theorem cbcenc_loop_dout (X : List Byte) (s : State) (iv : Block) (n : Nat) (j : Nat) :
    (((List.range n).foldl (cbcencChunk X) (s, iv)).1).doutByte j =
      if j < 16 * n then (cbcBlocks X (fun i => cbcPad (s.chunk i)) iv (j / 16 + 1))[j % 16] else s.doutByte j := by
  induction n with
  | zero => rfl
  | succ n ih =>
    obtain ⟨h1, d, h2⟩ := cbcenc_loop_prev X s iv n
    simp only [List.range_succ, List.foldl_append, List.foldl_cons, List.foldl_nil]
    have hc : ∀ d, State.chunk { s with dout := d } = s.chunk := fun _ => rfl
    generalize hp : (List.range n).foldl (cbcencChunk X) (s, iv) = p at *
    simp only [cbcencChunk, memWrite_doutByte, Vector.length_toList]
    rw [h1, h2, hc]
    rw [h2] at ih
    by_cases h : 16 * n ≤ j ∧ j < 16 * n + 16
    · have hj : j / 16 = n := by omega
      have hm : j - 16 * n = j % 16 := by omega
      have hlt : j % 16 < 16 := by omega
      rw [if_pos h, if_pos (by omega), hj, hm]
      simp [cbcBlocks, List.getD, hlt]
    · rw [if_neg h, ih]
      by_cases h3 : j < 16 * n
      · rw [if_pos h3, if_pos (by omega)]
      · rw [if_neg h3, if_neg (by omega)]

/-- The chaining value of CBC decryption before chunk `i`: the previous ciphertext chunk, or the IV (44_modes.md R185). -/
def cbcPrev (s : State) (iv : Block) : Nat → Block
  | 0 => iv
  | i + 1 => zpad16 (s.chunk i)

/-- The plaintext block of chunk `i` of CBC decryption (44_modes.md R185). -/
def cbcPlain (X : List Byte) (s : State) (iv : Block) (i : Nat) : Block :=
  xorV (decrypt (zpad16 (s.chunk i)) X) (cbcPrev s iv i)

theorem cbcdec_loop_prev (X : List Byte) (s : State) (iv : Block) (n : Nat) :
    ((List.range n).foldl (cbcdecChunk X) (s, iv)).2 = cbcPrev s iv n ∧
    ∃ d, ((List.range n).foldl (cbcdecChunk X) (s, iv)).1 = { s with dout := d } := by
  induction n with
  | zero => exact ⟨rfl, s.dout, rfl⟩
  | succ n ih =>
    obtain ⟨h1, d, h2⟩ := ih
    simp only [List.range_succ, List.foldl_append, List.foldl_cons, List.foldl_nil]
    have hc : ∀ d, State.chunk { s with dout := d } = s.chunk := fun _ => rfl
    constructor
    · simp [cbcdecChunk, h2, hc, cbcPrev]
    · exact ⟨_, by simp [cbcdecChunk, h2, State.memWrite]; rfl⟩

/-- The bytes below a length, cut into the chunks before `n`: the first `min (16 * n) len`. -/
theorem chunk_boundary {len n j : Nat} :
    (16 * n ≤ j ∧ j < 16 * n + chunkLen len n) ∨ j < min (16 * n) len ↔ j < min (16 * (n + 1)) len := by
  unfold chunkLen; omega

/-- CBCDEC's loop after `n` chunks. -/
theorem cbcdec_loop_dout (X : List Byte) (s : State) (iv : Block) (n : Nat) (j : Nat) :
    (((List.range n).foldl (cbcdecChunk X) (s, iv)).1).doutByte j =
      if j < min (16 * n) s.dlen.toNat then (cbcPlain X s iv (j / 16))[j % 16] else s.doutByte j := by
  induction n with
  | zero => simp
  | succ n ih =>
    obtain ⟨h1, d, h2⟩ := cbcdec_loop_prev X s iv n
    simp only [List.range_succ, List.foldl_append, List.foldl_cons, List.foldl_nil]
    have hc : ∀ d, State.chunk { s with dout := d } = s.chunk := fun _ => rfl
    generalize hp : (List.range n).foldl (cbcdecChunk X) (s, iv) = p at *
    have hl : chunkLen s.dlen.toNat n ≤ 16 := chunkLen_le ..
    simp only [cbcdecChunk, memWrite_doutByte, length_slice, Vector.length_toList, Nat.sub_zero]
    rw [h1, h2, hc]
    rw [h2] at ih
    simp only [Nat.min_eq_left hl]
    by_cases h : 16 * n ≤ j ∧ j < 16 * n + chunkLen s.dlen.toNat n
    · have hj : j / 16 = n := by omega
      have hm : j - 16 * n = j % 16 := by omega
      have hlt : j % 16 < 16 := by omega
      have hb : j < min (16 * (n + 1)) s.dlen.toNat := chunk_boundary.mp (Or.inl h)
      rw [if_pos h, if_pos hb, hj, hm, getD_slice _ (by omega)]
      simp [cbcPlain, List.getD, hlt]
    · rw [if_neg h, ih]
      by_cases h3 : j < min (16 * n) s.dlen.toNat
      · rw [if_pos h3, if_pos (chunk_boundary.mp (Or.inr h3))]
      · rw [if_neg h3, if_neg (fun hb => (chunk_boundary.mpr hb).elim h h3)]

/-- The keystream block of chunk `i` of CTR: the counter after `i` increments, encrypted (44_modes.md R188). -/
def keystream (X : List Byte) (C : Block) (i : Nat) : Block := encrypt (inc128^[i] C) X

theorem ctrcrypt_loop_ctr (X : List Byte) (s : State) (n : Nat) :
    ∃ d, (List.range n).foldl (ctrcryptChunk X) s = { s with dout := d, ctr := inc128^[n] s.ctr } := by
  induction n with
  | zero => exact ⟨s.dout, rfl⟩
  | succ n ih =>
    obtain ⟨d, h⟩ := ih
    simp only [List.range_succ, List.foldl_append, List.foldl_cons, List.foldl_nil, h]
    exact ⟨_, by simp [ctrcryptChunk, State.memWrite, State.next, Function.iterate_succ_apply']; rfl⟩

/-- CTRCRYPT's loop after `n` chunks. -/
theorem ctrcrypt_loop_dout (X : List Byte) (s : State) (n : Nat) (j : Nat) :
    ((List.range n).foldl (ctrcryptChunk X) s).doutByte j =
      if j < min (16 * n) s.dlen.toNat then s.dinByte j ^^^ (keystream X s.ctr (j / 16))[j % 16] else s.doutByte j := by
  induction n with
  | zero => simp
  | succ n ih =>
    obtain ⟨d, h2⟩ := ctrcrypt_loop_ctr X s n
    simp only [List.range_succ, List.foldl_append, List.foldl_cons, List.foldl_nil]
    have hl : chunkLen s.dlen.toNat n ≤ 16 := chunkLen_le ..
    rw [h2] at ih ⊢
    simp only [ctrcryptChunk, memWrite_doutByte, length_slice, Vector.length_toList, Nat.sub_zero, next_dlen,
      Nat.min_eq_left hl, next_fst, next_chunk, next_doutByte]
    have hc : ∀ d c, State.chunk { s with dout := d, ctr := c } = s.chunk := fun _ _ => rfl
    by_cases h : 16 * n ≤ j ∧ j < 16 * n + chunkLen s.dlen.toNat n
    · have hj : j / 16 = n := by omega
      have hm : j - 16 * n = j % 16 := by omega
      have hlt : j % 16 < 16 := by omega
      have hk : j % 16 < chunkLen s.dlen.toNat n := by omega
      have hb : j < min (16 * (n + 1)) s.dlen.toNat := chunk_boundary.mp (Or.inl h)
      rw [if_pos h, if_pos hb, hj, hm, getD_slice _ (by omega)]
      have e : 16 * n + j % 16 = j := by omega
      have e2 := getD_chunk s n 0 hk
      rw [e] at e2
      simp [keystream, List.getD, hlt, hc] at e2 ⊢
      rw [e2]
    · rw [if_neg h, ih]
      by_cases h3 : j < min (16 * n) s.dlen.toNat
      · rw [if_pos h3, if_pos (chunk_boundary.mp (Or.inr h3))]
      · rw [if_neg h3, if_neg (fun hb => (chunk_boundary.mpr hb).elim h h3)]

/-! ### Each command -/

theorem execKeyexpand_cases (s : State) :
    (legalKeyLen s.keylen.toNat = false ∧ execKeyexpand s = s.raise .invalidKeySize) ∨
    (legalKeyLen s.keylen.toNat = true ∧ execKeyexpand s = State.succeed { s with
      xkey := overwrite s.xkey 0 (keyExpand s.keyArg), xklen := BitVec.ofNat 8 (keyExpand s.keyArg).length }) := by
  unfold execKeyexpand
  cases h : legalKeyLen s.keylen.toNat <;> simp

theorem execBlkenc_cases (s : State) :
    (∃ e, blockError s = some e ∧ execBlkenc s = s.raise e) ∨
    (blockError s = none ∧ execBlkenc s = State.succeed { s with res := encrypt s.blk s.xkeyArg }) := by
  unfold execBlkenc
  cases h : blockError s <;> simp

theorem execBlkdec_cases (s : State) :
    (∃ e, blockError s = some e ∧ execBlkdec s = s.raise e) ∨
    (blockError s = none ∧ execBlkdec s = State.succeed { s with res := decrypt s.blk s.xkeyArg }) := by
  unfold execBlkdec
  cases h : blockError s <;> simp

theorem execCtrnext_eq (s : State) :
    execCtrnext s = .next { s with res := s.ctr, ctr := inc128 s.ctr, status := 0 } := rfl

/-- CBCENC: an error, or DOUT, OLEN and STATUS alone written, with the bytes of `cbcenc_loop_dout`. -/
theorem execCbcenc_cases (s : State) :
    (∃ e, modeError true s = some e ∧ execCbcenc s = s.raise e) ∨
    (modeError true s = none ∧ ∃ d, execCbcenc s = .next { s with
        dout := d, olen := BitVec.ofNat 32 (16 * chunks s.dlen.toNat), status := 0 } ∧
      d = ((List.range (chunks s.dlen.toNat)).foldl (cbcencChunk (modeKey s)) (s, s.iv)).1.dout) := by
  unfold execCbcenc
  cases h : modeError true s with
  | some e => exact .inl ⟨e, rfl, rfl⟩
  | none =>
    refine .inr ⟨rfl, ?_⟩
    obtain ⟨-, d, hd⟩ := cbcenc_loop_prev (modeKey s) s s.iv (chunks s.dlen.toNat)
    refine ⟨d, ?_, by rw [hd]⟩
    simp only [hd, State.succeed]

/-- CBCDEC: likewise, with the bytes of `cbcdec_loop_dout`. -/
theorem execCbcdec_cases (s : State) :
    (∃ e, modeError true s = some e ∧ execCbcdec s = s.raise e) ∨
    (modeError true s = none ∧ ∃ d, execCbcdec s = .next { s with dout := d, olen := s.dlen, status := 0 } ∧
      d = ((List.range (chunks s.dlen.toNat)).foldl (cbcdecChunk (modeKey s)) (s, s.iv)).1.dout) := by
  unfold execCbcdec
  cases h : modeError true s with
  | some e => exact .inl ⟨e, rfl, rfl⟩
  | none =>
    refine .inr ⟨rfl, ?_⟩
    obtain ⟨-, d, hd⟩ := cbcdec_loop_prev (modeKey s) s s.iv (chunks s.dlen.toNat)
    refine ⟨d, ?_, by rw [hd]⟩
    simp only [hd, State.succeed]

/-- CTRCRYPT: an error, or DOUT, OLEN, CTR and STATUS alone written, with the bytes of `ctrcrypt_loop_dout`. -/
theorem execCtrcrypt_cases (s : State) :
    (∃ e, modeError false s = some e ∧ execCtrcrypt s = s.raise e) ∨
    (modeError false s = none ∧ ∃ d, execCtrcrypt s = .next { s with
        dout := d, ctr := inc128^[chunks s.dlen.toNat] s.ctr, olen := s.dlen, status := 0 } ∧
      d = ((List.range (chunks s.dlen.toNat)).foldl (ctrcryptChunk (modeKey s)) s).dout) := by
  unfold execCtrcrypt
  cases h : modeError false s with
  | some e => exact .inl ⟨e, rfl, rfl⟩
  | none =>
    refine .inr ⟨rfl, ?_⟩
    obtain ⟨d, hd⟩ := ctrcrypt_loop_ctr (modeKey s) s (chunks s.dlen.toNat)
    refine ⟨d, ?_, by rw [hd]⟩
    simp only [hd, State.succeed]

/-! ### The mode commands when their tests pass -/

/-- DOUT is read through its cells and the number of resets alone. -/
theorem doutByte_congr {s u : State} (hd : s.dout = u.dout) (hr : s.resetCount = u.resetCount) (j : Nat) :
    s.doutByte j = u.doutByte j := by
  unfold State.doutByte; rw [hd, hr]

/-- CBCENC when its tests pass: the next state, and every byte of DOUT. -/
theorem execCbcenc_next {s : State} (h : modeError true s = none) :
    ∃ d t, execCbcenc s = .next t ∧
      t = { s with dout := d, olen := BitVec.ofNat 32 (16 * chunks s.dlen.toNat), status := 0 } ∧
      ∀ j, t.doutByte j =
        if j < 16 * chunks s.dlen.toNat
        then (cbcBlocks (modeKey s) (fun i => cbcPad (s.chunk i)) s.iv (j / 16 + 1))[j % 16] else s.doutByte j := by
  rcases execCbcenc_cases s with ⟨e, h1, -⟩ | ⟨-, d, h2, hd⟩
  · rw [h] at h1; cases h1
  · obtain ⟨-, d', hd'⟩ := cbcenc_loop_prev (modeKey s) s s.iv (chunks s.dlen.toNat)
    refine ⟨d, _, h2, rfl, fun j => ?_⟩
    rw [← cbcenc_loop_dout]
    exact doutByte_congr hd (by rw [hd']) j

/-- CBCDEC when its tests pass: the next state, and every byte of DOUT. -/
theorem execCbcdec_next {s : State} (h : modeError true s = none) :
    ∃ d t, execCbcdec s = .next t ∧ t = { s with dout := d, olen := s.dlen, status := 0 } ∧
      ∀ j, t.doutByte j =
        if j < s.dlen.toNat then (cbcPlain (modeKey s) s s.iv (j / 16))[j % 16] else s.doutByte j := by
  rcases execCbcdec_cases s with ⟨e, h1, -⟩ | ⟨-, d, h2, hd⟩
  · rw [h] at h1; cases h1
  · obtain ⟨-, d', hd'⟩ := cbcdec_loop_prev (modeKey s) s s.iv (chunks s.dlen.toNat)
    have hm : min (16 * chunks s.dlen.toNat) s.dlen.toNat = s.dlen.toNat := by unfold chunks; omega
    have hl := cbcdec_loop_dout (modeKey s) s s.iv (chunks s.dlen.toNat)
    rw [hm] at hl
    refine ⟨d, _, h2, rfl, fun j => ?_⟩
    rw [← hl]
    exact doutByte_congr hd (by rw [hd']) j

/-- CTRCRYPT when its tests pass: the next state, and every byte of DOUT. -/
theorem execCtrcrypt_next {s : State} (h : modeError false s = none) :
    ∃ d t, execCtrcrypt s = .next t ∧
      t = { s with dout := d, ctr := inc128^[chunks s.dlen.toNat] s.ctr, olen := s.dlen, status := 0 } ∧
      ∀ j, t.doutByte j =
        if j < s.dlen.toNat then s.dinByte j ^^^ (keystream (modeKey s) s.ctr (j / 16))[j % 16]
        else s.doutByte j := by
  rcases execCtrcrypt_cases s with ⟨e, h1, -⟩ | ⟨-, d, h2, hd⟩
  · rw [h] at h1; cases h1
  · obtain ⟨d', hd'⟩ := ctrcrypt_loop_ctr (modeKey s) s (chunks s.dlen.toNat)
    have hm : min (16 * chunks s.dlen.toNat) s.dlen.toNat = s.dlen.toNat := by unfold chunks; omega
    have hl := ctrcrypt_loop_dout (modeKey s) s (chunks s.dlen.toNat)
    rw [hm] at hl
    refine ⟨d, _, h2, rfl, fun j => ?_⟩
    rw [← hl]
    exact doutByte_congr hd (by rw [hd']) j

end Sys2Proof.Machine
end

