-- ==== Sys2Proof/Laws/Host.lean ====
section
/-! SUPPORT. What the host's actions can do, said once: which fields an action can change, and the loop of byte writes that
a LOAD stands for (30_encoding.md R76). -/

namespace Sys2Proof.Machine

@[simp] theorem ofId_id (it : Item) : Item.ofId it.id = some it := by cases it <;> rfl

/-- An id names at most the one item of 10_state.md R20 that carries it. -/
theorem id_of_ofId {id : Nat} {it : Item} (h : Item.ofId id = some it) : id = it.id := by
  unfold Item.ofId at h
  split at h <;> first | (cases h; rfl) | cases h

/-- A register write that completes issues a command, or stores into a length register alone (10_state.md R29, R30). -/
theorem hostWriteReg_next {id v : Nat} {s t : State} (h : hostWriteReg id v s = .next t) :
    (id = 0 ∧ v < 256 ∧ issue (BitVec.ofNat 8 v) s = .next t) ∨
    (id ≠ 0 ∧ t = { s with
      keylen := t.keylen, xklen := t.xklen, blklen := t.blklen, ivlen := t.ivlen, dlen := t.dlen }) := by
  unfold hostWriteReg at h
  split at h <;> (try simp only [storeScalar] at h) <;> (try split at h) <;>
    (try simp only [reduceCtorEq, Host.Outcome.next.injEq] at h)
  · next hi hv => exact .inl ⟨id_of_ofId hi, hv, h⟩
  all_goals
    refine .inr ⟨?_, by subst h; rfl⟩
    rintro rfl
    simp [Item.ofId] at *

/-- A host read that completes changes the values read alone (20_memory.md R59). -/
theorem hostReadReg_next {id : Nat} {s t : State} (h : hostReadReg id s = .next t) :
    t = { s with replies := t.replies } := by
  simp only [hostReadReg] at h
  split at h <;> (try split at h) <;> simp at h
  subst h; rfl

theorem hostReadByte_next {id j : Nat} {s t : State} (h : hostReadByte id j s = .next t) :
    t = { s with replies := t.replies } := by
  simp only [hostReadByte] at h
  split at h <;> (try split at h) <;> simp at h
  subst h; rfl

/-- A byte write that completes stores into one buffer the host may write; into DIN, one byte below MAXLEN. -/
theorem hostWriteByte_next {id j : Nat} {b : Byte} {s t : State} (h : hostWriteByte id j b s = .next t) :
    t = { s with key := t.key, xkey := t.xkey, blk := t.blk, iv := t.iv, ctr := t.ctr } ∨
    (j < s.maxLen ∧ t = { s with din := s.din.write j b }) := by
  simp only [hostWriteByte] at h
  split at h <;> (try simp only [storeByte] at h) <;> (try split at h) <;> simp at h <;> subst h <;>
    first | exact .inl rfl | exact .inr ⟨‹_›, rfl⟩

/-! ### A LOAD's loop of byte writes -/

theorem performAll_append (es fs : List HostEvent) (s : State) :
    performAll (es ++ fs) s = match performAll es s with
      | .next t => performAll fs t
      | .fault f => .fault f
      | .refused r => .refused r := by
  induction es generalizing s with
  | nil => rfl
  | cons e es ih =>
    simp only [List.cons_append, performAll]
    split <;> simp_all

/-- Storing a byte below the sequence's place and then the rest is storing the whole. -/
theorem overwrite_cons {n : Nat} (v : Vector Byte n) (a : Nat) (h : a < n) (b : Byte) (bs : List Byte) :
    overwrite (v.set a b) (a + 1) bs = overwrite v a (b :: bs) := by
  apply Vector.ext
  intro j hj
  rw [getElem_overwrite, getElem_overwrite, Vector.getElem_set, List.length_cons]
  by_cases h1 : j = a
  · subst h1
    rw [if_neg (by omega), if_pos rfl, if_pos (by omega)]
    simp
  · by_cases h2 : a + 1 ≤ j ∧ j < a + 1 + bs.length
    · rw [if_pos h2, if_pos (by omega), show j - a = (j - (a + 1)) + 1 by omega]
      rfl
    · rw [if_neg h2, if_neg (Ne.symm h1), if_neg (by omega)]

theorem overwrite_nil {n : Nat} (v : Vector Byte n) (a : Nat) : overwrite v a [] = v := by
  apply Vector.ext
  intro j hj
  rw [getElem_overwrite, if_neg (by simp)]

/-- The byte writes of a LOAD into a buffer whose writes are `storeByte`s. -/
theorem performAll_writeBytes {n : Nat} (it : Item) (get : State → Vector Byte n) (put : State → Vector Byte n → State)
    (hget : ∀ s v, get (put s v) = v) (hput : ∀ s v w, put (put s v) w = put s w) (hself : ∀ s, put s (get s) = s)
    (hw : ∀ s j b, hostWriteByte it.id j b s = storeByte (get s) j b (put s)) (bs : List Byte) :
    ∀ (s : State) (a : Nat), a + bs.length ≤ n →
      performAll (writeBytes it a bs) s = .next (put s (overwrite (get s) a bs)) := by
  induction bs with
  | nil => intro s a _; simp [writeBytes, performAll, overwrite_nil, hself]
  | cons b bs ih =>
    intro s a h
    simp only [List.length_cons] at h
    have ha : a < n := by omega
    simp only [writeBytes, performAll, perform, hw, storeByte, ha, dite_true]
    rw [ih _ _ (by omega), hget, hput, overwrite_cons]

theorem performAll_writeBytes_key (bs : List Byte) (s : State) (a : Nat) (h : a + bs.length ≤ 32) :
    performAll (writeBytes .key a bs) s = .next { s with key := overwrite s.key a bs } :=
  performAll_writeBytes .key State.key (fun s v => { s with key := v }) (fun _ _ => rfl) (fun _ _ _ => rfl)
    (fun _ => rfl) (fun _ _ _ => rfl) bs s a h

theorem performAll_writeBytes_xkey (bs : List Byte) (s : State) (a : Nat) (h : a + bs.length ≤ 240) :
    performAll (writeBytes .xkey a bs) s = .next { s with xkey := overwrite s.xkey a bs } :=
  performAll_writeBytes .xkey State.xkey (fun s v => { s with xkey := v }) (fun _ _ => rfl) (fun _ _ _ => rfl)
    (fun _ => rfl) (fun _ _ _ => rfl) bs s a h

theorem performAll_writeBytes_blk (bs : List Byte) (s : State) (a : Nat) (h : a + bs.length ≤ 16) :
    performAll (writeBytes .blk a bs) s = .next { s with blk := overwrite s.blk a bs } :=
  performAll_writeBytes .blk State.blk (fun s v => { s with blk := v }) (fun _ _ => rfl) (fun _ _ _ => rfl)
    (fun _ => rfl) (fun _ _ _ => rfl) bs s a h

theorem performAll_writeBytes_iv (bs : List Byte) (s : State) (a : Nat) (h : a + bs.length ≤ 16) :
    performAll (writeBytes .iv a bs) s = .next { s with iv := overwrite s.iv a bs } :=
  performAll_writeBytes .iv State.iv (fun s v => { s with iv := v }) (fun _ _ => rfl) (fun _ _ _ => rfl)
    (fun _ => rfl) (fun _ _ _ => rfl) bs s a h

theorem performAll_writeBytes_ctr (bs : List Byte) (s : State) (a : Nat) (h : a + bs.length ≤ 16) :
    performAll (writeBytes .ctr a bs) s = .next { s with ctr := overwrite s.ctr a bs } :=
  performAll_writeBytes .ctr State.ctr (fun s v => { s with ctr := v }) (fun _ _ => rfl) (fun _ _ _ => rfl)
    (fun _ => rfl) (fun _ _ _ => rfl) bs s a h

theorem performAll_writeBytes_din (bs : List Byte) (s : State) (a : Nat) (h : a + bs.length ≤ s.maxLen) :
    performAll (writeBytes .din a bs) s = .next { s with din := s.din.writeSeq a bs } := by
  induction bs generalizing s a with
  | nil => rfl
  | cons b bs ih =>
    simp only [List.length_cons] at h
    have ha : a < s.maxLen := by omega
    simp only [writeBytes, performAll, perform, hostWriteByte, ofId_id, ha, if_true]
    exact ih { s with din := s.din.write a b } (a + 1) (by show _ ≤ s.maxLen; omega)

/-- `DIN[j]` after a sequence is stored from `a`. -/
theorem dinByte_writeSeq (s : State) (a : Nat) (v : List Byte) (j : Nat) :
    State.dinByte { s with din := s.din.writeSeq a v } j =
      if a ≤ j ∧ j < a + v.length then v.getD (j - a) 0 else s.dinByte j := by
  unfold State.dinByte
  simp only [Memory.read?_writeSeq]
  split
  · next h =>
    have : j - a < v.length := by omega
    simp [List.getD, List.getElem?_eq_getElem this]
  · rfl

end Sys2Proof.Machine
end

