-- ==== Sys2Proof/Laws/KeyExpansion.lean ====
section
/-! SUPPORT. The lengths of the sequences the key schedule builds (41_key_expansion.md R123, R127). -/

namespace Sys2Proof.Machine

@[simp] theorem length_appendWord (k : Nat) (d : List Byte) (t : Word4) : (appendWord k d t).length = d.length + 4 := by
  simp [appendWord]

@[simp] theorem length_plainWords (k n : Nat) (d : List Byte) : (plainWords k n d).length = d.length + 4 * n := by
  induction n generalizing d with
  | zero => rfl
  | succ n ih => simp only [plainWords, ih, length_appendWord]; omega

/-- A group appends `k` bytes for a legal key length, so the groups end exactly where R124 to R126 count them. -/
theorem length_keyGroup {k : Nat} (rc : Nat) (d : List Byte) (hk : k = 16 ∨ k = 24 ∨ k = 32) :
    (keyGroup k rc d).length = d.length + k := by
  rcases hk with rfl | rfl | rfl <;> simp [keyGroup, extraWords]

end Sys2Proof.Machine
end

