-- ==== Sys2Proof/Tests/Slice0.lean ====
section
/-! SUPPORT. Tests and witnesses. Expected values are those of 95_test_vectors.md, cited by section or case, or follow by
hand from the rule cited. Each `witness_<Name>` shows inputs that meet the hypotheses of the obligation `<Name>`. -/

namespace Sys2Proof.Tests

open Sys2Proof.Machine

/-- A machine after reset with a MAXLEN of 64 bytes. -/
def base : State := { State.reset with capBlocks := 3 }

/-- `base` with legal lengths: KEYLEN 16, XKLEN 176, BLKLEN 16, IVLEN 16 and the given DLEN; every data byte 0. -/
def legal (dlen : BitVec 32) : State := { base with keylen := 16, xklen := 176, blklen := 16, ivlen := 16, dlen := dlen }

/-- `legal` with the given bytes in DIN and their number in DLEN. -/
def withInput (bytes : List Byte) : State :=
  { legal (BitVec.ofNat 32 bytes.length) with din := Memory.writeSeq [] 0 bytes }

/-! ### Decoding: words written out from the encoding column of spec/opcode_table.json -/

theorem test_decode_keyexpand : decode 0b00000001#8 = .ok .keyexpand := by decide
theorem test_decode_blkenc : decode 0b00000010#8 = .ok .blkenc := by decide
theorem test_decode_blkdec : decode 0b00000011#8 = .ok .blkdec := by decide
theorem test_decode_cbcenc : decode 0b00000100#8 = .ok .cbcenc := by decide
theorem test_decode_cbcdec : decode 0b00000101#8 = .ok .cbcdec := by decide
theorem test_decode_ctrcrypt : decode 0b00000110#8 = .ok .ctrcrypt := by decide
theorem test_decode_ctrnext : decode 0b00000111#8 = .ok .ctrnext := by decide
theorem test_decode_table_word : decodeTableWord 8 0x06 = some .ctrcrypt ∧ decodeTableWord 8 0x80 = none := by decide

/-! ### Well-formedness: one ill-formed term for each check, refused -/

theorem test_reserved_opcodes :
    legalOpcode 0x00 = false ∧ legalOpcode 0x08 = false ∧ legalOpcode 0x81 = false ∧ legalOpcode 0xff = false ∧
    legalOpcode 0x01 = true ∧ legalOpcode 0x07 = true := by decide

theorem test_no_such_item :
    (HostEvent.writeReg 0x08 0).wellFormed 64 = false ∧ hostWriteReg 0x08 0 base = .refused .noSuchItem ∧
    (HostEvent.readByte 0x18 0).wellFormed 64 = false ∧ hostReadByte 0x18 0 base = .refused .noSuchItem :=
  ⟨rfl, rfl, rfl, rfl⟩

theorem test_not_writable :
    (HostEvent.writeReg 0x01 0).wellFormed 64 = false ∧ hostWriteReg 0x01 0 base = .refused .notWritable ∧
    (HostEvent.writeByte 0x15 0 0).wellFormed 64 = false ∧ hostWriteByte 0x15 0 0 base = .refused .notWritable :=
  ⟨rfl, rfl, rfl, rfl⟩

theorem test_not_readable :
    (HostEvent.readReg 0x00).wellFormed 64 = false ∧ hostReadReg 0x00 base = .refused .notReadable := ⟨rfl, rfl⟩

theorem test_wrong_kind :
    (HostEvent.writeReg 0x10 0).wellFormed 64 = false ∧ hostWriteReg 0x10 0 base = .refused .wrongKind ∧
    (HostEvent.writeByte 0x02 0 0).wellFormed 64 = false ∧ hostWriteByte 0x02 0 0 base = .refused .wrongKind :=
  ⟨rfl, rfl, rfl, rfl⟩

/-- Wrong in two ways: the kind is named first, then the access right (DESIGN CHOICE, log 9). -/
theorem test_refusal_order :
    hostWriteReg 0x15 0 base = .refused .wrongKind ∧ hostWriteByte 0x01 0 0 base = .refused .wrongKind ∧
    hostReadByte 0x00 0 base = .refused .wrongKind ∧ hostWriteReg 0x01 256 base = .refused .notWritable ∧
    hostWriteByte 0x15 16 0 base = .refused .notWritable :=
  ⟨rfl, rfl, rfl, rfl, rfl⟩

theorem test_value_too_wide :
    (HostEvent.writeReg 0x02 256).wellFormed 64 = false ∧ hostWriteReg 0x02 256 base = .refused .valueTooWide ∧
    (HostEvent.writeReg 0x02 255).wellFormed 64 = true ∧ (HostEvent.writeReg 0x06 (2 ^ 32)).wellFormed 64 = false :=
  ⟨rfl, rfl, rfl, rfl⟩

theorem test_index_out_of_range :
    (HostEvent.writeByte 0x10 32 0).wellFormed 64 = false ∧ hostWriteByte 0x10 32 0 base = .refused .indexOutOfRange ∧
    (HostEvent.readByte 0x16 64).wellFormed 64 = false ∧ hostReadByte 0x16 64 base = .refused .indexOutOfRange :=
  ⟨rfl, rfl, rfl, rfl⟩

/-- 30_encoding.md R76: a LOAD of CTR spells exactly 16 bytes, a LOAD fits, and SETLEN needs a length register. -/
theorem test_host_lines :
    (HostLine.load .ctr [0]).wellFormed 64 = false ∧ (HostLine.load .blk (List.replicate 17 0)).wellFormed 64 = false ∧
    (HostLine.load .res []).wellFormed 64 = false ∧ (HostLine.load .keylen []).wellFormed 64 = false ∧
    (HostLine.setlen .ctr 16).wellFormed 64 = false ∧ (HostLine.load .din []).wellFormed 64 = true := by decide

/-! ### Field arithmetic and tables, section 3 -/

theorem test_gfmul :
    gfmul 0xca 0x00 = 0x00 ∧ gfmul 0x02 0x80 = 0x1b ∧ gfmul 0x53 0xca = 0x01 ∧ gfmul 0x09 0xff = 0x46 ∧
    gfmul 0x0d 0x80 = 0xda ∧ gfmul 0x0e 0x47 = 0x87 ∧ gfmul 0x02 0x8d = 0x01 := by decide +kernel

theorem test_gfmul_bitwise :
    gfmulBitwise 0x57 0x13 = 0xfe ∧ gfmulBitwise 0x57 0x83 = 0xc1 ∧ gfmulBitwise 0x03 0xff = 0x1a := by decide +kernel

theorem test_table_spots :
    sbox 0x00 = 0x63 ∧ sbox 0x10 = 0xca ∧ sbox 0x53 = 0xed ∧ sbox 0xff = 0x16 ∧ invSbox 0x00 = 0x52 ∧
    invSbox 0xff = 0x7d ∧ expT 25 = 0x02 ∧ expT 254 = 0xf6 ∧ logT 0x02 = 25 ∧ logT 0xff = 7 := by decide +kernel

/-- The weighted sums of section 3, over the indices that exist. -/
theorem test_table_sums :
    ((List.range 256).map fun i => i * i * (sbox (BitVec.ofNat 8 i)).toNat).sum = 696871718 ∧
    ((List.range 256).map fun i => i * i * (invSbox (BitVec.ofNat 8 i)).toNat).sum = 689167672 ∧
    ((List.range 255).map fun i => i * i * (expT i).toNat).sum = 724737191 ∧
    ((List.range 255).map fun i => (i + 1) * (i + 1) * logT (BitVec.ofNat 8 (i + 1))).sum = 728016197 := by
  decide +kernel

/-! ### Round steps on the State 00 01 .. 0f, section 3 -/

/-- The State of section 3. -/
def counting : Block := #v[0x00, 0x01, 0x02, 0x03, 0x04, 0x05, 0x06, 0x07, 0x08, 0x09, 0x0a, 0x0b, 0x0c, 0x0d, 0x0e, 0x0f]

theorem test_shift_rows :
    shiftRows counting =
      #v[0x00, 0x05, 0x0a, 0x0f, 0x04, 0x09, 0x0e, 0x03, 0x08, 0x0d, 0x02, 0x07, 0x0c, 0x01, 0x06, 0x0b] ∧
    invShiftRows counting =
      #v[0x00, 0x0d, 0x0a, 0x07, 0x04, 0x01, 0x0e, 0x0b, 0x08, 0x05, 0x02, 0x0f, 0x0c, 0x09, 0x06, 0x03] := by
  decide +kernel

theorem test_mix_columns :
    mixColumns counting =
      #v[0x02, 0x07, 0x00, 0x05, 0x06, 0x03, 0x04, 0x01, 0x0a, 0x0f, 0x08, 0x0d, 0x0e, 0x0b, 0x0c, 0x09] ∧
    invMixColumns counting =
      #v[0x0a, 0x0f, 0x08, 0x0d, 0x0e, 0x0b, 0x0c, 0x09, 0x02, 0x07, 0x00, 0x05, 0x06, 0x03, 0x04, 0x01] := by
  decide +kernel

/-! ### The key schedule, section 4: the first group of V4.4 (192 bits) and of V4.6 (256 bits) -/

theorem test_core_word : coreWord #v[0x52, 0x2c, 0x6b, 0x7b] 1 = #v[0x70, 0x7f, 0x21, 0x00] := by decide +kernel

/-- V4.6, 256 bits: words 8 to 15, with the substituted word `a8 b0 9c 1a`. -/
theorem test_key_group_256 :
    (keyGroup 32 1
      [0x60, 0x3d, 0xeb, 0x10, 0x15, 0xca, 0x71, 0xbe, 0x2b, 0x73, 0xae, 0xf0, 0x85, 0x7d, 0x77, 0x81,
       0x1f, 0x35, 0x2c, 0x07, 0x3b, 0x61, 0x08, 0xd7, 0x2d, 0x98, 0x10, 0xa3, 0x09, 0x14, 0xdf, 0xf4]).drop 32 =
      [0x9b, 0xa3, 0x54, 0x11, 0x8e, 0x69, 0x25, 0xaf, 0xa5, 0x1a, 0x8b, 0x5f, 0x20, 0x67, 0xfc, 0xde,
       0xa8, 0xb0, 0x9c, 0x1a, 0x93, 0xd1, 0x94, 0xcd, 0xbe, 0x49, 0x84, 0x6e, 0xb7, 0x5d, 0x5b, 0x9a] := by
  decide +kernel

/-! ### The commands -/

/-- What a register shows after a command. -/
def after (i : Instr) (s : State) {α : Type} (f : State → α) : Option α :=
  match exec i s with
  | .next t => some (f t)
  | .fault _ => none
  | .refused _ => none

/-- V4.1: the all-zero 128-bit key; XKLEN, the last round key, and XKEY from XKLEN on as before. -/
theorem test_keyexpand :
    after .keyexpand (legal 0) (fun t => (t.xklen, slice t.xkey.toList 160 32)) =
      some (176, [0xb4, 0xef, 0x5b, 0xcb, 0x3e, 0x92, 0xe2, 0x11, 0x23, 0xe9, 0x51, 0xcf, 0x6f, 0x8f, 0x18, 0x8e,
        0x00, 0x00, 0x00, 0x00, 0x00, 0x00, 0x00, 0x00, 0x00, 0x00, 0x00, 0x00, 0x00, 0x00, 0x00, 0x00]) := by
  decide +kernel

/-- Section 10: KEYLEN = 20. -/
theorem test_keyexpand_length :
    after .keyexpand { legal 0 with keylen := 20 } (fun t => (t.status, t.xklen)) = some (1, 176) := by decide +kernel

/-- V5.6: an expanded key of 176 zero bytes. -/
theorem test_blkenc :
    after .blkenc (legal 0) (fun t => (t.res, t.status)) = some (Vector.replicate 16 0x36, 0) := by decide +kernel

/-- Section 10: XKLEN = 0 and BLKLEN = 0, XKLEN tested first. -/
theorem test_blkenc_order :
    after .blkenc { legal 0 with xklen := 0, blklen := 0 } (fun t => t.status) = some 1 := by decide

/-- V5.6 undone (42_block_cipher.md R151). -/
theorem test_blkdec :
    after .blkdec { legal 0 with blk := Vector.replicate 16 0x36 } (fun t => (t.res, t.status)) =
      some (Vector.replicate 16 0x00, 0) := by decide +kernel

/-- Section 10: BLKLEN = 17. -/
theorem test_blkdec_length :
    after .blkdec { legal 0 with blklen := 17 } (fun t => t.status) = some 2 := by decide

/-- V7.4: the 4-byte plaintext `41 42 43 44` under the zero key and IV; 12 pad bytes. -/
theorem test_cbcenc :
    after .cbcenc (withInput [0x41, 0x42, 0x43, 0x44]) (fun t => (t.olen, (List.range 16).map t.doutByte)) =
      some (16, [0x06, 0xea, 0xe9, 0x46, 0x7d, 0x04, 0xbf, 0x9c, 0x1d, 0xfc, 0x13, 0xcd, 0x9f, 0x6a, 0xce, 0x75]) := by
  decide +kernel

/-- Section 10: IVLEN = 8 and DLEN = MAXLEN + 1. -/
theorem test_cbcenc_order :
    after .cbcenc { legal 65 with ivlen := 8 } (fun t => (t.status, t.olen)) = some (3, 0) := by decide

/-- V7.4 undone: the pad bytes stay. -/
theorem test_cbcdec :
    after .cbcdec
        (withInput [0x06, 0xea, 0xe9, 0x46, 0x7d, 0x04, 0xbf, 0x9c, 0x1d, 0xfc, 0x13, 0xcd, 0x9f, 0x6a, 0xce, 0x75])
        (fun t => (t.olen, (List.range 16).map t.doutByte)) =
      some (16, [0x41, 0x42, 0x43, 0x44, 0x0c, 0x0c, 0x0c, 0x0c, 0x0c, 0x0c, 0x0c, 0x0c, 0x0c, 0x0c, 0x0c, 0x0c]) := by
  decide +kernel

/-- Section 10: DLEN = MAXLEN + 1. -/
theorem test_cbcdec_too_long : after .cbcdec (legal 65) (fun t => (t.status, t.olen)) = some (6, 0) := by decide

/-- V8.4, the first command: 8 bytes, a short last chunk; CTR still advances. -/
theorem test_ctrcrypt :
    after .ctrcrypt (withInput (List.replicate 8 0x00)) (fun t => (t.olen, (List.range 8).map t.doutByte, t.ctr[15])) =
      some (8, [0x66, 0xe9, 0x4b, 0xd4, 0xef, 0x8a, 0x2c, 0x3b], 0x01) := by decide +kernel

/-- CTRCRYPT does not test IVLEN (44_modes.md R181); V8.5, the empty input. -/
theorem test_ctrcrypt_empty :
    after .ctrcrypt { legal 0 with ivlen := 8 } (fun t => (t.status, t.olen, t.ctr)) =
      some (0, 0, Vector.replicate 16 0) := by decide

/-- Section 6: CTRNEXT from `ff .. ff`: the old value, then the wrap-around. -/
theorem test_ctrnext :
    after .ctrnext { base with ctr := Vector.replicate 16 0xff } (fun t => (t.res, t.ctr, t.status)) =
      some (Vector.replicate 16 0xff, Vector.replicate 16 0x00, 0) := by decide +kernel

/-- Section 2, S6: a single carry, `.. 01 ff` to `.. 02 00`. -/
theorem test_inc128 :
    inc128 #v[0, 0, 0, 0, 0, 0, 0, 0, 0, 0, 0, 0, 0, 0, 0x01, 0xff] =
      #v[0, 0, 0, 0, 0, 0, 0, 0, 0, 0, 0, 0, 0, 0, 0x02, 0x00] := by decide +kernel

/-- 30_encoding.md R73: a reserved opcode as the first command after reset. -/
theorem test_step_reserved :
    step (base.withFetchWord 8 0x80) = .next { base with status := 5, failures := [.illegalCommand] } := rfl

/-- The first command after reset (10_state.md R37): KEYEXPAND fails, CTRNEXT succeeds. -/
theorem test_step_first :
    step (State.reset.withFetchWord 8 0x01) =
      .next { State.reset with status := 1, failures := [.invalidKeySize] } ∧
    step (State.reset.withFetchWord 8 0x07) = exec .ctrnext State.reset := ⟨rfl, rfl⟩

/-! ### Password text -/

/-- V9.4: the 28-byte password is cut at 16 bytes; V9.1: the 8-byte one is zero-padded. -/
theorem test_raw_key :
    rawKey [0x70, 0x61, 0x73, 0x73, 0x77, 0x6f, 0x72, 0x64] 16 =
      [0x70, 0x61, 0x73, 0x73, 0x77, 0x6f, 0x72, 0x64, 0, 0, 0, 0, 0, 0, 0, 0] ∧
    (rawKey (List.replicate 28 0x41) 16).length = 16 := by decide

/-- V9.7. -/
theorem test_password_checks :
    decryptPwText (some (List.replicate 7 0)) [] 16 base = .error .decodeError base ∧
    decryptPwText (some (List.replicate 8 0)) [] 20 base = .error .invalidKeySize base := ⟨rfl, rfl⟩

/-! ### Witnesses: inputs that meet the hypotheses of each obligation, each clause at the ends of its range -/

theorem witness_DecodeReadsEncodedCommand : Instr.wellFormed .keyexpand = true ∧ Instr.wellFormed .ctrnext = true := by decide

theorem witness_StepRunsDecodedCommand :
    ∃ (s : State) (rest : List HostEvent), s.pending = .writeReg 0x00 (0x07 : Byte).toNat :: rest ∧
      decode 0x07 = .ok .ctrnext ∧ rest = [.reset] :=
  ⟨{ base with pending := [.writeReg 0x00 7, .reset] }, [.reset], rfl, rfl, rfl⟩

theorem witness_StepPerformsOldestAction :
    ({ base with pending := [.readReg 0x01] } : State).pending = .readReg 0x01 :: [] ∧ base.pending = [] := ⟨rfl, rfl⟩

theorem witness_ReservedOpcodeReportsIllegalCommand :
    ((0x00 : Byte) = 0x00 ∨ 0x08 ≤ (0x00 : Byte).toNat) ∧ 0x08 ≤ (0x08 : Byte).toNat ∧ 0x08 ≤ (0xff : Byte).toNat := by
  decide

theorem witness_StepKeepsInvariant :
    ∃ s t : State, s.Inv = true ∧ step s = .next t ∧ t.din ≠ s.din :=
  ⟨{ base with pending := [.writeByte 0x16 63 0xff] }, { base with din := [(63, 0xff)] }, rfl, rfl, by decide⟩

theorem witness_MaxLenIsLegalAndFixed : ∃ s t : State, step s = .next t ∧ t.status ≠ s.status :=
  ⟨{ base with pending := [.writeReg 0x00 1] }, { base with status := 1, failures := [.invalidKeySize] }, rfl, by decide⟩

/-- Each error of R214, the first test and the last, and no error. -/
theorem witness_FirstFailingTestIsReported :
    firstError (tests { legal 0 with keylen := 20, ivlen := 8 } .cbcenc) = some .invalidKeySize ∧
    firstError (tests { legal 65 with ivlen := 8 } .cbcdec) = some .invalidIvSize ∧
    firstError (tests (legal 65) .ctrcrypt) = some .dataTooLong ∧
    firstError (tests { legal 0 with blklen := 15 } .blkenc) = some .invalidBlockSize ∧
    firstError (tests (legal 64) .cbcenc) = none ∧ legalOpcode 0x08 = false ∧ legalOpcode 0x00 = false := by decide

/-- The second state differs from the first in a register KEYEXPAND does not test. -/
theorem witness_FailedCommandFailsAgain :
    (∃ t, exec .keyexpand base = .next t ∧ t.status ≠ 0 ∧
      tests { base with ivlen := 16 } .keyexpand = tests base .keyexpand) ∧
    legalOpcode 0xff = false ∧ (∃ t, issue 0xff base = .next t) :=
  ⟨⟨{ base with status := 1, failures := [.invalidKeySize] }, rfl, by decide, rfl⟩, rfl, ⟨_, rfl⟩⟩

theorem witness_OnlyCommandsWriteStatus :
    (∃ t, issue 0x07 base = .next t) ∧ (∃ t, issue 0x80 base = .next t) ∧
    (∃ t, perform (.writeReg 0x02 16) base = .next t ∧ (∀ v, HostEvent.writeReg 0x02 16 ≠ .writeReg 0x00 v)) ∧
    (∃ t, perform (.readByte 0x10 31) base = .next t) :=
  ⟨⟨_, rfl⟩, ⟨_, rfl⟩, ⟨_, rfl, by simp⟩, ⟨_, rfl⟩⟩

theorem witness_HistoryRecordsEveryFailure : (∃ t, issue 0x07 base = .next t) ∧ (∃ t, issue 0x04 base = .next t) :=
  ⟨⟨_, rfl⟩, ⟨_, rfl⟩⟩

theorem legal_cbc : modeError true (legal 17) = none ∧ modeError true (legal 64) = none ∧ modeError true (legal 0) = none := by
  decide

theorem legal_ctr : modeError false (legal 17) = none ∧ modeError false (legal 64) = none := by decide

/-- Every command, each succeeding. -/
theorem witness_CommandsWriteOnlyTheirItems :
    (∃ t, exec .keyexpand (legal 0) = .next t ∧ t.status = 0) ∧ (∃ t, exec .blkenc (legal 0) = .next t ∧ t.status = 0) ∧
    (∃ t, exec .blkdec (legal 0) = .next t ∧ t.status = 0) ∧ (∃ t, exec .ctrnext (legal 0) = .next t ∧ t.status = 0) ∧
    (∃ t, exec .cbcenc (legal 64) = .next t ∧ t.status = 0) ∧ (∃ t, exec .cbcdec (legal 17) = .next t ∧ t.status = 0) ∧
    (∃ t, exec .ctrcrypt (legal 17) = .next t ∧ t.status = 0) := by
  obtain ⟨_, t, ht, rfl, -⟩ := execCbcenc_next legal_cbc.2.1
  obtain ⟨_, u, hu, rfl, -⟩ := execCbcdec_next legal_cbc.1
  obtain ⟨_, v, hv, rfl, -⟩ := execCtrcrypt_next legal_ctr.1
  exact ⟨⟨_, rfl, rfl⟩, ⟨_, rfl, rfl⟩, ⟨_, rfl, rfl⟩, ⟨_, rfl, rfl⟩, ⟨_, ht, rfl⟩, ⟨_, hu, rfl⟩, ⟨_, hv, rfl⟩⟩

/-- Two different machines that agree on what the mode commands read: XKEY and RES differ. -/
theorem witness_ModeCommandsReadOnlyTheirItems :
    ∃ s u s' u' : State, s ≠ u ∧ s.keylen = u.keylen ∧ s.keyArg = u.keyArg ∧ s.dlen = u.dlen ∧ s.maxLen = u.maxLen ∧
      (∀ j, j < s.dlen.toNat → s.dinByte j = u.dinByte j) ∧ (s.ivlen = u.ivlen ∧ s.iv = u.iv) ∧ s.ctr = u.ctr ∧
      exec .cbcenc s = .next s' ∧ exec .cbcenc u = .next u' ∧ s'.status = 0 := by
  have h : modeError true { legal 17 with xklen := 0 } = none := by decide
  obtain ⟨_, t, ht, rfl, -⟩ := execCbcenc_next legal_cbc.1
  obtain ⟨_, v, hv, rfl, -⟩ := execCbcenc_next h
  exact ⟨legal 17, { legal 17 with xklen := 0 }, _, _, fun e => absurd (congrArg State.xklen e) (by decide), rfl, rfl, rfl,
    rfl, fun _ _ => rfl, ⟨rfl, rfl⟩, rfl, ht, hv, rfl⟩

theorem witness_ModeCommandsReadOnlyTheirItems_other :
    (∃ t, exec .cbcdec (legal 17) = .next t ∧ t.status = 0) ∧ (∃ t, exec .ctrcrypt (legal 17) = .next t ∧ t.status = 0) := by
  obtain ⟨_, t, ht, rfl, -⟩ := execCbcdec_next legal_cbc.1
  obtain ⟨_, u, hu, rfl, -⟩ := execCtrcrypt_next legal_ctr.1
  exact ⟨⟨_, ht, rfl⟩, ⟨_, hu, rfl⟩⟩

/-- Two different machines that agree on what each register command reads. -/
theorem witness_RegisterCommandsReadOnlyTheirItems :
    ∃ s u : State, s ≠ u ∧ s.keylen = u.keylen ∧ s.keyArg = u.keyArg ∧ s.xklen = u.xklen ∧ s.xkeyArg = u.xkeyArg ∧
      s.blklen = u.blklen ∧ s.blk = u.blk ∧ s.ctr = u.ctr ∧
      (∃ s' u', exec .keyexpand s = .next s' ∧ exec .keyexpand u = .next u') ∧
      (∃ s' u', exec .blkenc s = .next s' ∧ exec .blkenc u = .next u') ∧
      (∃ s' u', exec .blkdec s = .next s' ∧ exec .blkdec u = .next u') ∧
      (∃ s' u', exec .ctrnext s = .next s' ∧ exec .ctrnext u = .next u') :=
  ⟨legal 0, legal 1, fun e => absurd (congrArg State.dlen e) (by decide), rfl, rfl, rfl, rfl, rfl, rfl, rfl,
    ⟨_, _, rfl, rfl⟩, ⟨_, _, rfl, rfl⟩, ⟨_, _, rfl, rfl⟩, ⟨_, _, rfl, rfl⟩⟩

theorem witness_KeyexpandExpandsKey :
    ((16 : BitVec 8).toNat = 16 ∧ (24 : BitVec 8).toNat = 24 ∧ (32 : BitVec 8).toNat = 32) ∧
    (legal 0).keylen.toNat = 16 ∧
    ¬ (base.keylen.toNat = 16 ∨ base.keylen.toNat = 24 ∨ base.keylen.toNat = 32) ∧
    ¬ ((255 : BitVec 8).toNat = 16 ∨ (255 : BitVec 8).toNat = 24 ∨ (255 : BitVec 8).toNat = 32) := by decide

theorem witness_BlkencEncryptsBlock :
    ((legal 0).xklen.toNat = 176 ∧ (legal 0).blklen.toNat = 16) ∧
    ({ legal 0 with xklen := 240 } : State).xklen.toNat = 240 ∧
    ¬ (base.xklen.toNat = 176 ∨ base.xklen.toNat = 208 ∨ base.xklen.toNat = 240) ∧
    (({ legal 0 with xklen := 208, blklen := 17 } : State).xklen.toNat = 208 ∧
      ({ legal 0 with xklen := 208, blklen := 17 } : State).blklen.toNat ≠ 16) := by decide

theorem witness_BlkdecDecryptsBlock :
    ((legal 0).xklen.toNat = 176 ∧ (legal 0).blklen.toNat = 16) ∧
    ¬ ((175 : BitVec 8).toNat = 176 ∨ (175 : BitVec 8).toNat = 208 ∨ (175 : BitVec 8).toNat = 240) ∧
    (({ legal 0 with blklen := 15 } : State).xklen.toNat = 176 ∧ ({ legal 0 with blklen := 15 } : State).blklen.toNat ≠ 16) := by
  decide

theorem witness_BlkdecUndoesBlkenc :
    ∃ s t u v : State, s.ready .blkenc = true ∧ exec .blkenc s = .next t ∧ u = { t with blk := t.res } ∧
      exec .blkdec u = .next v :=
  ⟨legal 0, _, _, _, by decide, rfl, rfl, rfl⟩

theorem witness_CbcencChainsBlocks :
    (legal 0).ready .cbcenc = true ∧ (legal 64).ready .cbcenc = true ∧
    firstError (tests (legal 65) .cbcenc) = some .dataTooLong ∧ firstError (tests base .cbcenc) = some .invalidKeySize := by
  decide

theorem witness_PaddingRule :
    (1 ≤ [(0x41 : Byte)].length ∧ [(0x41 : Byte)].length ≤ 16) ∧ (List.replicate 16 (0x41 : Byte)).length ≤ 16 := by decide

theorem witness_CbcdecChainsBlocks :
    (legal 1).ready .cbcdec = true ∧ (legal 64).ready .cbcdec = true ∧
    firstError (tests { legal 65 with ivlen := 17 } .cbcdec) = some .invalidIvSize := by decide

theorem witness_CtrcryptXorsKeystream :
    ({ legal 1 with ivlen := 8 } : State).ready .ctrcrypt = true ∧ (legal 64).ready .ctrcrypt = true ∧
    firstError (tests (legal 65) .ctrcrypt) = some .dataTooLong ∧ firstError (tests base .ctrcrypt) = some .invalidKeySize := by
  decide

/-- Byte 16 is the first of chunk 1, whose counter value is 1. -/
theorem witness_CtrcryptCounterOffset :
    (legal 17).ready .ctrcrypt = true ∧ (∃ t, exec .ctrcrypt (legal 17) = .next t) ∧ 16 < (legal 17).dlen.toNat ∧
    ctrVal ((Vector.replicate 16 0 : Block).set 15 1) = (ctrVal (legal 17).ctr + 16 / 16) % 2 ^ 128 := by
  obtain ⟨_, t, ht, -⟩ := execCtrcrypt_next legal_ctr.1
  exact ⟨by decide, ⟨t, ht⟩, by decide, by decide +kernel⟩

/-- `legal n` with the bytes `f 0`, `f 1`, ... as its input. -/
def fed (n : BitVec 32) (f : Nat → Byte) : State :=
  { legal n with din := Memory.writeSeq [] 0 ((List.range n.toNat).map f) }

theorem fed_dinByte (n : BitVec 32) (f : Nat → Byte) (j : Nat) (h : j < n.toNat) : (fed n f).dinByte j = f j := by
  refine (dinByte_writeSeq (legal n) 0 ((List.range n.toNat).map f) j).trans ?_
  rw [if_pos (by simpa using h)]
  simp [List.getD, h]

theorem fed_modeError (usesIv : Bool) (n : BitVec 32) (f : Nat → Byte) :
    modeError usesIv (fed n f) = modeError usesIv (legal n) := rfl

theorem fed_keyArg (n : BitVec 32) (f : Nat → Byte) : (fed n f).keyArg = (legal n).keyArg := by
  simp only [State.keyArg, fed]

theorem fed_maxLen (n : BitVec 32) (f : Nat → Byte) : (fed n f).maxLen = (legal n).maxLen := by
  simp only [State.maxLen, fed]

/-- 17 bytes of plaintext, so that 15 pad bytes follow: 32 bytes of output, fed back. -/
theorem witness_CbcRoundTripKeepsPadding :
    ∃ s t u v : State, s.ready .cbcenc = true ∧ exec .cbcenc s = .next t ∧ u.keylen = s.keylen ∧ u.keyArg = s.keyArg ∧
      u.ivlen = s.ivlen ∧ u.iv = s.iv ∧ u.maxLen = s.maxLen ∧ u.dlen = t.olen ∧
      (∀ j, j < t.olen.toNat → u.dinByte j = t.doutByte j) ∧ exec .cbcdec u = .next v ∧ s.dlen.toNat = 17 := by
  obtain ⟨_, t, ht, h1, -⟩ := execCbcenc_next legal_cbc.1
  have ho : t.olen = 32 := by rw [h1]; rfl
  clear h1
  generalize hf : t.doutByte = f
  obtain ⟨_, v, hv, -⟩ := execCbcdec_next ((fed_modeError true 32 f).trans (by decide))
  refine ⟨legal 17, t, fed 32 f, v, by decide, ht, rfl, rfl, rfl, rfl, rfl, ho.symm, fun j hj => ?_, hv, rfl⟩
  rw [fed_dinByte 32 f j (by rw [ho] at hj; exact hj), ← hf]

/-- 17 bytes, two chunks, the second short, fed back. -/
theorem witness_CtrcryptSelfInverse :
    ∃ s t u v : State, s.ready .ctrcrypt = true ∧ exec .ctrcrypt s = .next t ∧ u.keylen = s.keylen ∧ u.keyArg = s.keyArg ∧
      u.ctr = s.ctr ∧ u.maxLen = s.maxLen ∧ u.dlen = t.olen ∧ (∀ j, j < t.olen.toNat → u.dinByte j = t.doutByte j) ∧
      exec .ctrcrypt u = .next v ∧ s.dlen.toNat = 17 := by
  obtain ⟨_, t, ht, h1, -⟩ := execCtrcrypt_next legal_ctr.1
  have ho : t.olen = 17 := by rw [h1]; rfl
  clear h1
  generalize hf : t.doutByte = f
  obtain ⟨_, v, hv, -⟩ := execCtrcrypt_next ((fed_modeError false 17 f).trans (by decide))
  refine ⟨legal 17, t, fed 17 f, v, by decide, ht, rfl, fed_keyArg 17 f, rfl, fed_maxLen 17 f, ho.symm, fun j hj => ?_, hv, rfl⟩
  rw [fed_dinByte 17 f j (by rw [ho] at hj; exact hj), ← hf]

theorem witness_EmptyInputGivesEmptyOutput :
    (legal 0).dlen = 0 ∧ (legal 0).ready .cbcenc = true ∧ (legal 0).ready .cbcdec = true ∧
    (legal 0).ready .ctrcrypt = true := by decide

theorem witness_ExpAndLogTables : (0x01 : Byte) ≠ 0 ∧ (0xff : Byte) ≠ 0 := by decide

theorem witness_SboxConstruction :
    gfmulBitwise 0x53 0xca = 1 ∧ gfmulBitwise 0x01 0x01 = 1 ∧ ((0x00 : Byte) = 0 ∧ (0x00 : Byte) = 0) ∧
    (0xff : Byte) ≠ 0 := by decide +kernel

theorem witness_DecryptUndoesEncrypt :
    (List.replicate 176 (0 : Byte)).length = 176 ∧ (List.replicate 208 (0 : Byte)).length = 208 ∧
    (List.replicate 240 (0 : Byte)).length = 240 :=
  ⟨List.length_replicate, List.length_replicate, List.length_replicate⟩

/-- Also for KeyExpandUnrolled and KeyExpandWordRecurrence: a key of each size. -/
theorem witness_KeyExpandContract :
    (List.replicate 16 (0 : Byte)).length = 16 ∧ (List.replicate 24 (0 : Byte)).length = 24 ∧
    (List.replicate 32 (0 : Byte)).length = 32 := by decide

theorem witness_KeyExpandUnrolled : (List.replicate 16 (0 : Byte)).length = 16 ∧ (List.replicate 24 (0 : Byte)).length = 24 ∧
    (List.replicate 32 (0 : Byte)).length = 32 := witness_KeyExpandContract

theorem witness_KeyExpandWordRecurrence :
    (List.replicate 24 (0 : Byte)).length = 16 ∨ (List.replicate 24 (0 : Byte)).length = 24 ∨
    (List.replicate 24 (0 : Byte)).length = 32 := by decide

theorem witness_HostMovesAreThoseOfTheList :
    (HostEvent.writeReg 0x00 255).wellFormed base.maxLen = true ∧ (HostEvent.writeByte 0x16 63 0).wellFormed base.maxLen = true ∧
    (HostEvent.readByte 0x17 63).wellFormed base.maxLen = true ∧ HostEvent.reset.wellFormed base.maxLen = true ∧
    (HostEvent.readByte 0x17 64).wellFormed base.maxLen = false ∧ (HostEvent.readReg 0x08).wellFormed base.maxLen = false := by
  decide

theorem witness_HostReadsLeaveEngineAlone :
    base.scalar .olen = some 0 ∧ base.bufferByte .xkey 239 = some 0 ∧ base.bufferByte .dout 63 = some (base.doutByte 63) :=
  ⟨rfl, rfl, rfl⟩

theorem witness_LengthRegistersArePlainStorage :
    255 < (if Item.keylen = .dlen then 2 ^ 32 else 2 ^ 8) ∧ 2 ^ 32 - 1 < (if Item.dlen = .dlen then 2 ^ 32 else 2 ^ 8) := by
  decide

theorem witness_HostByteWritesAreLocal :
    (Item.hostWrites .key = true ∧ Item.capacity base.maxLen .key = some 32 ∧ 31 < 32) ∧
    (Item.hostWrites .din = true ∧ Item.capacity base.maxLen .din = some 64 ∧ 63 < 64) := by decide

theorem witness_ResetValues :
    (∃ s t, perform .reset s = .next t ∧ s.status = 6) ∧ State.reset.bufferByte .xkey 239 = some 0 ∧
    State.reset.scalar .dlen = some 0 :=
  ⟨⟨{ base with status := 6 }, _, rfl, rfl⟩, rfl, rfl⟩

theorem witness_AfterResetOnlyCtrnextSucceeds : ∃ t, perform .reset (legal 64) = .next t := ⟨_, rfl⟩

theorem witness_LoadFillsBufferAndLength :
    (HostLine.load .key []).wellFormed base.maxLen = true ∧
    (HostLine.load .xkey (List.replicate 240 0)).wellFormed base.maxLen = true ∧
    (HostLine.load .ctr (List.replicate 16 0)).wellFormed base.maxLen = true ∧
    (HostLine.load .din (List.replicate 64 0)).wellFormed base.maxLen = true := by decide +kernel

theorem witness_RawKeyTruncatesAndPads : 15 < 16 ∧ 15 < (List.replicate 28 (0x41 : Byte)).length ∧
    ¬ 8 < (List.replicate 8 (0x41 : Byte)).length := by decide

theorem witness_PasswordTextChecks :
    ¬ (20 = 16 ∨ 20 = 24 ∨ 20 = 32) ∧ (List.replicate 7 (0 : Byte)).length < 8 ∧ (24 = 16 ∨ 24 = 24 ∨ 24 = 32) := by decide

theorem witness_PasswordTextDecrypts :
    (8 ≤ (List.replicate 8 (0 : Byte)).length ∧ (List.replicate 8 (0 : Byte)).length - 8 ≤ base.maxLen) ∧
    (8 ≤ (List.replicate 72 (0 : Byte)).length ∧ (List.replicate 72 (0 : Byte)).length - 8 ≤ base.maxLen) ∧
    (32 = 16 ∨ 32 = 24 ∨ 32 = 32) := by decide

theorem witness_PasswordTextTooLong :
    base.maxLen < (List.replicate 73 (0 : Byte)).length - 8 ∧ (List.replicate 73 (0 : Byte)).length - 8 < 2 ^ 32 := by decide

theorem witness_EffectiveKeyLength : (16 = 16 ∨ 16 = 24 ∨ 16 = 32) ∧ (32 = 16 ∨ 32 = 24 ∨ 32 = 32) := by decide

end Sys2Proof.Tests
end

section
/-! The two outcomes of a command (00_scope.md R18), said once for all seven commands, and what no step changes: MAXLEN
(R9, log 5). -/

namespace Sys2Proof.Machine

/-- The error codes of 60_exceptions.md R210 are 1 to 6: no error reads as success. -/
theorem Err.code_ne_zero (e : Err) : e.code ≠ 0 := by cases e <;> decide

/-- A command raises an error, or succeeds and writes at most XKEY, XKLEN, RES, CTR, DOUT and OLEN (10_state.md R36). -/
theorem exec_cases (i : Instr) (s : State) :
    (∃ e, exec i s = s.raise e) ∨
    ∃ t, exec i s = .next t ∧ t = { s with
      xkey := t.xkey, xklen := t.xklen, res := t.res, ctr := t.ctr, dout := t.dout, olen := t.olen, status := 0 } := by
  cases i with
  | keyexpand =>
    rcases execKeyexpand_cases s with ⟨-, h⟩ | ⟨-, h⟩
    · exact .inl ⟨_, h⟩
    · exact .inr ⟨_, h, rfl⟩
  | blkenc =>
    rcases execBlkenc_cases s with ⟨e, -, h⟩ | ⟨-, h⟩
    · exact .inl ⟨e, h⟩
    · exact .inr ⟨_, h, rfl⟩
  | blkdec =>
    rcases execBlkdec_cases s with ⟨e, -, h⟩ | ⟨-, h⟩
    · exact .inl ⟨e, h⟩
    · exact .inr ⟨_, h, rfl⟩
  | cbcenc =>
    rcases execCbcenc_cases s with ⟨e, -, h⟩ | ⟨-, d, h, -⟩
    · exact .inl ⟨e, h⟩
    · exact .inr ⟨_, h, rfl⟩
  | cbcdec =>
    rcases execCbcdec_cases s with ⟨e, -, h⟩ | ⟨-, d, h, -⟩
    · exact .inl ⟨e, h⟩
    · exact .inr ⟨_, h, rfl⟩
  | ctrcrypt =>
    rcases execCtrcrypt_cases s with ⟨e, -, h⟩ | ⟨-, d, h, -⟩
    · exact .inl ⟨e, h⟩
    · exact .inr ⟨_, h, rfl⟩
  | ctrnext => exact .inr ⟨_, execCtrnext_eq s, rfl⟩

/-- Settles O10: an error changes STATUS and the model's history alone, and a success leaves STATUS 0. -/
theorem commandHasTwoOutcomes : Obligations.CommandHasTwoOutcomes := by
  intro i s
  rcases exec_cases i s with ⟨e, he⟩ | ⟨t, ht, hframe⟩
  · exact ⟨_, he, .inr ⟨e.code_ne_zero, _, rfl⟩⟩
  · exact ⟨t, ht, .inl (by rw [hframe])⟩

/-! ### MAXLEN -/

theorem raise_maxLen {e : Err} {s t : State} (h : s.raise e = .next t) : t.maxLen = s.maxLen := by
  cases h; rfl

theorem exec_maxLen {i : Instr} {s t : State} (h : exec i s = .next t) : t.maxLen = s.maxLen := by
  rcases exec_cases i s with ⟨e, he⟩ | ⟨u, hu, hframe⟩
  · exact raise_maxLen (he.symm.trans h)
  · cases hu.symm.trans h
    rw [hframe]; rfl

/-- A write to CMD executes a command or raises IllegalCommand (10_state.md R29, 30_encoding.md R73). -/
theorem issue_cases (op : Byte) (s : State) :
    (∃ i, decode op = .ok i ∧ issue op s = exec i s) ∨
    (∃ r, decode op = .error r ∧ issue op s = s.raise .illegalCommand) := by
  unfold issue
  cases decode op with
  | ok i => exact .inl ⟨i, rfl, rfl⟩
  | error r => exact .inr ⟨r, rfl, rfl⟩

theorem issue_maxLen {op : Byte} {s t : State} (h : issue op s = .next t) : t.maxLen = s.maxLen := by
  rcases issue_cases op s with ⟨i, -, hi⟩ | ⟨r, -, hr⟩
  · exact exec_maxLen (hi.symm.trans h)
  · exact raise_maxLen (hr.symm.trans h)

/-- No action of the host, and not reset, changes MAXLEN (log 5, log 10). -/
theorem perform_maxLen {e : HostEvent} {s t : State} (h : perform e s = .next t) : t.maxLen = s.maxLen := by
  cases e with
  | writeReg id v =>
    rcases hostWriteReg_next h with ⟨-, -, hissue⟩ | ⟨-, hframe⟩
    · exact issue_maxLen hissue
    · rw [hframe]; rfl
  | readReg id => rw [hostReadReg_next h]; rfl
  | writeByte id j b =>
    rcases hostWriteByte_next h with hframe | ⟨-, hframe⟩
    · rw [hframe]; rfl
    · rw [hframe]; rfl
  | readByte id j => rw [hostReadByte_next h]; rfl
  | reset => cases h; exact afterReset_maxLen s

/-- A step that completes is idle with nothing pending, or performs the oldest pending action (20_memory.md R62). -/
theorem step_next {s t : State} (h : step s = .next t) :
    (s.pending = [] ∧ t = s) ∨
    ∃ e rest, s.pending = e :: rest ∧ perform e { s with pending := rest } = .next t := by
  unfold step performPending at h
  split at h
  · next hp => cases h; exact .inl ⟨hp, rfl⟩
  · next e rest hp => exact .inr ⟨e, rest, hp, h⟩

/-- Settles O9: the bounds are those of the capacity field, and a step is idle or one host action, which keeps it. -/
theorem maxLenIsLegalAndFixed : Obligations.MaxLenIsLegalAndFixed := by
  refine ⟨maxLen_legal, fun s t h => ?_⟩
  rcases step_next h with ⟨-, rfl⟩ | ⟨e, rest, -, he⟩
  · rfl
  · calc t.maxLen = State.maxLen { s with pending := rest } := perform_maxLen he
      _ = s.maxLen := rfl

end Sys2Proof.Machine
end

section
/-! The write sets of the commands (10_state.md R36) and the values of STATUS (R31), said once for all seven commands. -/

namespace Sys2Proof.Machine

/-! ### The write sets -/

/-- `s` after a success of command `i`: the items of the command's "writes" cell (10_state.md R36) as in `t`, STATUS 0. -/
def State.withWritten (s : State) (i : Instr) (t : State) : State :=
  match i with
  | .keyexpand => { s with xkey := t.xkey, xklen := t.xklen, status := 0 }
  | .blkenc | .blkdec => { s with res := t.res, status := 0 }
  | .cbcenc | .cbcdec => { s with dout := t.dout, olen := t.olen, status := 0 }
  | .ctrcrypt => { s with dout := t.dout, olen := t.olen, ctr := t.ctr, status := 0 }
  | .ctrnext => { s with res := t.res, ctr := t.ctr, status := 0 }

theorem blockError_ne_decodeError {s : State} {e : Err} (h : blockError s = some e) : e ≠ .decodeError := by
  rintro rfl
  rcases blockError_cases s with ⟨-, he⟩ | ⟨-, -, he⟩ | ⟨-, -, he⟩ <;> cases he.symm.trans h

theorem modeError_ne_decodeError {usesIv : Bool} {s : State} {e : Err} (h : modeError usesIv s = some e) :
    e ≠ .decodeError := by
  rintro rfl
  rcases modeError_cases usesIv s with ⟨-, he⟩ | ⟨-, -, he⟩ | ⟨-, -, -, he⟩ | ⟨-, -, -, he⟩ <;> cases he.symm.trans h

/-- A command raises an error of its own tests, never DecodeError, or succeeds and writes its write set alone. -/
theorem exec_writes (i : Instr) (s : State) :
    (∃ e, e ≠ .decodeError ∧ exec i s = s.raise e) ∨ ∃ t, exec i s = .next t ∧ t = s.withWritten i t := by
  cases i with
  | keyexpand =>
    rcases execKeyexpand_cases s with ⟨-, h⟩ | ⟨-, h⟩
    · exact .inl ⟨_, by decide, h⟩
    · exact .inr ⟨_, h, rfl⟩
  | blkenc =>
    rcases execBlkenc_cases s with ⟨e, he, h⟩ | ⟨-, h⟩
    · exact .inl ⟨e, blockError_ne_decodeError he, h⟩
    · exact .inr ⟨_, h, rfl⟩
  | blkdec =>
    rcases execBlkdec_cases s with ⟨e, he, h⟩ | ⟨-, h⟩
    · exact .inl ⟨e, blockError_ne_decodeError he, h⟩
    · exact .inr ⟨_, h, rfl⟩
  | cbcenc =>
    rcases execCbcenc_cases s with ⟨e, he, h⟩ | ⟨-, d, h, -⟩
    · exact .inl ⟨e, modeError_ne_decodeError he, h⟩
    · exact .inr ⟨_, h, rfl⟩
  | cbcdec =>
    rcases execCbcdec_cases s with ⟨e, he, h⟩ | ⟨-, d, h, -⟩
    · exact .inl ⟨e, modeError_ne_decodeError he, h⟩
    · exact .inr ⟨_, h, rfl⟩
  | ctrcrypt =>
    rcases execCtrcrypt_cases s with ⟨e, he, h⟩ | ⟨-, d, h, -⟩
    · exact .inl ⟨e, modeError_ne_decodeError he, h⟩
    · exact .inr ⟨_, h, rfl⟩
  | ctrnext => exact .inr ⟨_, execCtrnext_eq s, rfl⟩

/-- `exec_writes` read from a command that answered `t`. -/
theorem exec_next {i : Instr} {s t : State} (h : exec i s = .next t) :
    (∃ e : Err, e ≠ .decodeError ∧ t = { s with status := e.code, failures := e :: s.failures }) ∨
    t = s.withWritten i t := by
  rcases exec_writes i s with ⟨e, hne, he⟩ | ⟨u, hu, hframe⟩
  · cases he.symm.trans h
    exact .inl ⟨e, hne, rfl⟩
  · cases hu.symm.trans h
    exact .inr hframe

@[simp] theorem withWritten_status (s : State) (i : Instr) (t : State) : (s.withWritten i t).status = 0 := by
  cases i <;> rfl

/-- No command writes the items that stand in no "writes" cell of 10_state.md R36, nor the host's side of the state. -/
theorem withWritten_frame (s : State) (i : Instr) (t : State) : s.withWritten i t = { s with
    xkey := (s.withWritten i t).xkey, xklen := (s.withWritten i t).xklen, res := (s.withWritten i t).res,
    ctr := (s.withWritten i t).ctr, dout := (s.withWritten i t).dout, olen := (s.withWritten i t).olen, status := 0 } := by
  cases i <;> rfl

theorem withWritten_xkey {i : Instr} (hi : i ≠ .keyexpand) (s t : State) :
    (s.withWritten i t).xklen = s.xklen ∧ (s.withWritten i t).xkey = s.xkey := by
  cases i with
  | keyexpand => exact absurd rfl hi
  | _ => exact ⟨rfl, rfl⟩

theorem withWritten_ctr {i : Instr} (hc : i ≠ .ctrcrypt) (hn : i ≠ .ctrnext) (s t : State) :
    (s.withWritten i t).ctr = s.ctr := by
  cases i with
  | ctrcrypt => exact absurd rfl hc
  | ctrnext => exact absurd rfl hn
  | _ => rfl

theorem withWritten_res {i : Instr} (he : i ≠ .blkenc) (hd : i ≠ .blkdec) (hn : i ≠ .ctrnext) (s t : State) :
    (s.withWritten i t).res = s.res := by
  cases i with
  | blkenc => exact absurd rfl he
  | blkdec => exact absurd rfl hd
  | ctrnext => exact absurd rfl hn
  | _ => rfl

theorem withWritten_output {i : Instr} (he : i ≠ .cbcenc) (hd : i ≠ .cbcdec) (hc : i ≠ .ctrcrypt) (s t : State) :
    (s.withWritten i t).olen = s.olen ∧ (s.withWritten i t).dout = s.dout := by
  cases i with
  | cbcenc => exact absurd rfl he
  | cbcdec => exact absurd rfl hd
  | ctrcrypt => exact absurd rfl hc
  | _ => exact ⟨rfl, rfl⟩

/-! ### The part of a written item that a command leaves alone -/

theorem length_keyExpand_le (key : List Byte) : (keyExpand key).length ≤ xlen key.length := by
  simp only [keyExpand, length_slice]
  exact Nat.min_le_left ..

/-- KEYEXPAND writes XKEY below the length of the expansion alone (41_key_expansion.md R130). -/
theorem execKeyexpand_xkey_tail {s t : State} (h : execKeyexpand s = .next t) {j : Nat} (hj : j < 240)
    (hx : xlen s.keylen.toNat ≤ j) : t.xkey[j] = s.xkey[j] := by
  rcases execKeyexpand_cases s with ⟨-, he⟩ | ⟨hk, hn⟩
  · cases he.symm.trans h
    rfl
  · cases hn.symm.trans h
    have hlen := length_keyExpand_le s.keyArg
    rw [length_keyArg_of_legal hk] at hlen
    rw [getElem_overwrite, if_neg (by omega)]

/-- CBCENC writes DOUT below the end of its last block alone (44_modes.md R182). -/
theorem execCbcenc_dout_tail {s t : State} (h : execCbcenc s = .next t) {j : Nat}
    (hj : 16 * chunks s.dlen.toNat ≤ j) : t.doutByte j = s.doutByte j := by
  rcases execCbcenc_cases s with ⟨e, -, he⟩ | ⟨hok, -⟩
  · cases he.symm.trans h
    rfl
  · obtain ⟨d, u, hu, -, hbytes⟩ := execCbcenc_next hok
    cases hu.symm.trans h
    rw [hbytes, if_neg (Nat.not_lt.mpr hj)]

/-- CBCDEC writes DOUT below DLEN alone (44_modes.md R185). -/
theorem execCbcdec_dout_tail {s t : State} (h : execCbcdec s = .next t) {j : Nat} (hj : s.dlen.toNat ≤ j) :
    t.doutByte j = s.doutByte j := by
  rcases execCbcdec_cases s with ⟨e, -, he⟩ | ⟨hok, -⟩
  · cases he.symm.trans h
    rfl
  · obtain ⟨d, u, hu, -, hbytes⟩ := execCbcdec_next hok
    cases hu.symm.trans h
    rw [hbytes, if_neg (Nat.not_lt.mpr hj)]

/-- CTRCRYPT writes DOUT below DLEN alone (44_modes.md R188). -/
theorem execCtrcrypt_dout_tail {s t : State} (h : execCtrcrypt s = .next t) {j : Nat} (hj : s.dlen.toNat ≤ j) :
    t.doutByte j = s.doutByte j := by
  rcases execCtrcrypt_cases s with ⟨e, -, he⟩ | ⟨hok, -⟩
  · cases he.symm.trans h
    rfl
  · obtain ⟨d, u, hu, -, hbytes⟩ := execCtrcrypt_next hok
    cases hu.symm.trans h
    rw [hbytes, if_neg (Nat.not_lt.mpr hj)]

/-- Settles O15: on an error STATUS and the history alone change, on a success the write set, up to the stated lengths. -/
theorem commandsWriteOnlyTheirItems : Obligations.CommandsWriteOnlyTheirItems := by
  intro i s t h
  have hxtail : i = .keyexpand → ∀ j : Fin 240, xlen s.keylen.toNat ≤ j → t.xkey[j] = s.xkey[j] := by
    rintro rfl j hj
    exact execKeyexpand_xkey_tail h j.isLt hj
  have henc : i = .cbcenc → ∀ j, 16 * chunks s.dlen.toNat ≤ j → t.doutByte j = s.doutByte j := by
    rintro rfl j hj
    exact execCbcenc_dout_tail h hj
  have hdec : i = .cbcdec ∨ i = .ctrcrypt → ∀ j, s.dlen.toNat ≤ j → t.doutByte j = s.doutByte j := by
    rintro (rfl | rfl) j hj
    · exact execCbcdec_dout_tail h hj
    · exact execCtrcrypt_dout_tail h hj
  rcases exec_next h with ⟨e, -, ht⟩ | ht
  · refine ⟨?_, fun _ => ?_, hxtail, fun _ _ => ?_, fun _ _ _ => ?_, fun _ _ _ => ?_, henc, hdec⟩ <;> simp [ht]
  · refine ⟨?_, fun hi => ?_, hxtail, fun hc hn => ?_, fun he hd hn => ?_, fun he hd hc => ?_, henc, hdec⟩
    · rw [ht, withWritten_frame]; simp
    · rw [ht]; exact withWritten_xkey hi s t
    · rw [ht]; exact withWritten_ctr hc hn s t
    · rw [ht]; exact withWritten_res he hd hn s t
    · rw [ht]; exact withWritten_output he hd hc s t

/-! ### STATUS -/

/-- Every error but DecodeError has a code the engine can show (10_state.md R31). -/
theorem legalStatus_code {e : Err} (h : e ≠ .decodeError) : legalStatus e.code = true := by
  cases e with
  | decodeError => exact absurd rfl h
  | _ => rfl

/-- A code the engine can show leaves `STATUS[7:4]` at 0 (10_state.md R31). -/
theorem statusHigh_of_legalStatus {s : State} (h : legalStatus s.status = true) : s.statusHigh = 0 := by
  simp only [legalStatus, Bool.or_eq_true, decide_eq_true_eq] at h
  unfold State.statusHigh
  rcases h with ((((h | h) | h) | h) | h) | h <;> rw [h] <;> rfl

theorem exec_legalStatus {i : Instr} {s t : State} (h : exec i s = .next t) : legalStatus t.status = true := by
  rcases exec_next h with ⟨e, hne, ht⟩ | ht
  · rw [ht]; exact legalStatus_code hne
  · rw [ht, withWritten_status]; rfl

theorem issue_legalStatus {op : Byte} {s t : State} (h : issue op s = .next t) : legalStatus t.status = true := by
  rcases issue_cases op s with ⟨i, -, hi⟩ | ⟨r, -, hr⟩
  · exact exec_legalStatus (hi.symm.trans h)
  · cases hr.symm.trans h
    rfl

/-- Settles O13: the error a command raises is never DecodeError, and every other host action has a frame with STATUS. -/
theorem onlyCommandsWriteStatus : Obligations.OnlyCommandsWriteStatus := by
  refine ⟨fun op s t h => ⟨issue_legalStatus h, statusHigh_of_legalStatus (issue_legalStatus h)⟩, ?_⟩
  intro e s t h hcmd hreset
  cases e with
  | writeReg id v =>
    rcases hostWriteReg_next h with ⟨rfl, -, -⟩ | ⟨-, ht⟩
    · exact absurd rfl (hcmd v)
    · rw [ht]
  | readReg id => rw [hostReadReg_next h]
  | writeByte id j b =>
    rcases hostWriteByte_next h with ht | ⟨-, ht⟩
    · rw [ht]
    · rw [ht]
  | readByte id j => rw [hostReadByte_next h]
  | reset => exact absurd rfl hreset

end Sys2Proof.Machine
end

section
/-! The invariant of every state: the loops of the mode commands write whole chunks below MAXLEN, and everything else
leaves the data buffers alone or stores one byte in range. -/

namespace Sys2Proof.Machine

theorem State.inv_iff {s : State} :
    s.Inv = true ↔
      s.din.wf s.maxLen = true ∧ s.dout.wf s.maxLen = true ∧ legalStatus s.status = true ∧ s.olen.toNat ≤ s.maxLen := by
  simp only [State.Inv, Bool.and_eq_true, decide_eq_true_eq, and_assoc]

/-! ### The mode commands keep DOUT canonical -/

/-- Writing a chunk of at most 16 bytes in one of the `n` places below the capacity keeps DOUT canonical (log 7). -/
theorem memWrite_chunk_wf {cap n i : Nat} {s : State} {v : List Byte} (hcap : 16 * n ≤ cap) (hi : i ∈ List.range n)
    (hv : v.length ≤ 16) (hw : s.dout.wf cap = true) : (s.memWrite (16 * i) v).dout.wf cap = true := by
  rw [List.mem_range] at hi
  exact Memory.wf_writeSeq v (by omega) hw

section
variable {cap n : Nat} {s : State} (X : List Byte) (hcap : 16 * n ≤ cap) (hw : s.dout.wf cap = true)
include hcap hw

theorem cbcenc_loop_wf (iv : Block) : ((List.range n).foldl (cbcencChunk X) (s, iv)).1.dout.wf cap = true := by
  refine List.foldlRecOn (motive := fun p : State × Block => p.1.dout.wf cap = true) _ _ hw fun p hp i hi => ?_
  exact memWrite_chunk_wf hcap hi (by simp) hp

theorem cbcdec_loop_wf (iv : Block) : ((List.range n).foldl (cbcdecChunk X) (s, iv)).1.dout.wf cap = true := by
  refine List.foldlRecOn (motive := fun p : State × Block => p.1.dout.wf cap = true) _ _ hw fun p hp i hi => ?_
  exact memWrite_chunk_wf hcap hi (by simp) hp

theorem ctrcrypt_loop_wf : ((List.range n).foldl (ctrcryptChunk X) s).dout.wf cap = true := by
  refine List.foldlRecOn (motive := fun u : State => u.dout.wf cap = true) _ _ hw fun u hu i hi => ?_
  exact memWrite_chunk_wf hcap hi (by simp) hu

end

/-- The tests of a mode command have passed only for an input that fits DIN (44_modes.md R181). -/
theorem dlen_le_of_modeError {usesIv : Bool} {s : State} (h : modeError usesIv s = none) : s.dlen.toNat ≤ s.maxLen := by
  rcases modeError_cases usesIv s with ⟨-, he⟩ | ⟨-, -, he⟩ | ⟨-, -, -, he⟩ | ⟨-, -, hle, -⟩
  · cases he.symm.trans h
  · cases he.symm.trans h
  · cases he.symm.trans h
  · exact hle

/-- What the invariant says of the output: DOUT canonical and OLEN at most MAXLEN. -/
def State.OutputFits (s : State) : Prop := s.dout.wf s.maxLen = true ∧ s.olen.toNat ≤ s.maxLen

theorem execCbcenc_outputFits {s t : State} (h : execCbcenc s = .next t) (hs : s.OutputFits) : t.OutputFits := by
  rcases execCbcenc_cases s with ⟨e, -, he⟩ | ⟨hok, d, hn, hd⟩
  · cases he.symm.trans h
    exact hs
  · have hfit := chunks_fit (dlen_le_of_modeError hok)
    cases hn.symm.trans h
    refine ⟨hd ▸ cbcenc_loop_wf _ hfit hs.1 _, ?_⟩
    calc (BitVec.ofNat 32 (16 * chunks s.dlen.toNat)).toNat
      _ = 16 * chunks s.dlen.toNat % 2 ^ 32 := BitVec.toNat_ofNat ..
      _ ≤ 16 * chunks s.dlen.toNat := Nat.mod_le ..
      _ ≤ s.maxLen := hfit

theorem execCbcdec_outputFits {s t : State} (h : execCbcdec s = .next t) (hs : s.OutputFits) : t.OutputFits := by
  rcases execCbcdec_cases s with ⟨e, -, he⟩ | ⟨hok, d, hn, hd⟩
  · cases he.symm.trans h
    exact hs
  · have hlen := dlen_le_of_modeError hok
    cases hn.symm.trans h
    exact ⟨hd ▸ cbcdec_loop_wf _ (chunks_fit hlen) hs.1 _, hlen⟩

theorem execCtrcrypt_outputFits {s t : State} (h : execCtrcrypt s = .next t) (hs : s.OutputFits) : t.OutputFits := by
  rcases execCtrcrypt_cases s with ⟨e, -, he⟩ | ⟨hok, d, hn, hd⟩
  · cases he.symm.trans h
    exact hs
  · have hlen := dlen_le_of_modeError hok
    cases hn.symm.trans h
    exact ⟨hd ▸ ctrcrypt_loop_wf _ (chunks_fit hlen) hs.1, hlen⟩

/-- The mode commands' output fits (44_modes.md R182, R185, R188); the other commands have DOUT and OLEN in no "writes"
cell. -/
theorem exec_outputFits {i : Instr} {s t : State} (h : exec i s = .next t) (hs : s.OutputFits) : t.OutputFits := by
  cases i with
  | cbcenc => exact execCbcenc_outputFits h hs
  | cbcdec => exact execCbcdec_outputFits h hs
  | ctrcrypt => exact execCtrcrypt_outputFits h hs
  | _ =>
    rcases exec_next h with ⟨e, -, ht⟩ | ht
    · rw [ht]; exact hs
    · rw [ht]; exact hs

/-! ### The invariant -/

theorem raise_inv {e : Err} {s t : State} (hne : e ≠ .decodeError) (h : s.raise e = .next t) (hs : s.Inv = true) :
    t.Inv = true := by
  obtain ⟨hdin, hdout, -, holen⟩ := State.inv_iff.mp hs
  cases h
  exact State.inv_iff.mpr ⟨hdin, hdout, legalStatus_code hne, holen⟩

/-- No command writes DIN (10_state.md R36). -/
theorem exec_din {i : Instr} {s t : State} (h : exec i s = .next t) : t.din = s.din := by
  rcases exec_next h with ⟨e, -, ht⟩ | ht
  · rw [ht]
  · rw [ht, withWritten_frame]

theorem exec_inv {i : Instr} {s t : State} (h : exec i s = .next t) (hs : s.Inv = true) : t.Inv = true := by
  obtain ⟨hdin, hdout, -, holen⟩ := State.inv_iff.mp hs
  obtain ⟨hdout', holen'⟩ := exec_outputFits h ⟨hdout, holen⟩
  exact State.inv_iff.mpr ⟨by rwa [exec_din h, exec_maxLen h], hdout', exec_legalStatus h, holen'⟩

theorem issue_inv {op : Byte} {s t : State} (h : issue op s = .next t) (hs : s.Inv = true) : t.Inv = true := by
  rcases issue_cases op s with ⟨i, -, hi⟩ | ⟨r, -, hr⟩
  · exact exec_inv (hi.symm.trans h) hs
  · exact raise_inv (by decide) (hr.symm.trans h) hs

/-- The state after a reset meets the invariant, whatever it was before. -/
theorem afterReset_inv (s : State) : s.afterReset.Inv = true :=
  State.inv_iff.mpr ⟨Memory.wf_nil _, Memory.wf_nil _, rfl, Nat.zero_le _⟩

/-- Every action of the host, and reset, keeps the invariant. -/
theorem perform_inv {e : HostEvent} {s t : State} (h : perform e s = .next t) (hs : s.Inv = true) : t.Inv = true := by
  cases e with
  | writeReg id v =>
    rcases hostWriteReg_next h with ⟨-, -, hissue⟩ | ⟨-, ht⟩
    · exact issue_inv hissue hs
    · rw [ht]; exact hs
  | readReg id => rw [hostReadReg_next h]; exact hs
  | writeByte id j b =>
    rcases hostWriteByte_next h with ht | ⟨hj, ht⟩
    · rw [ht]; exact hs
    · obtain ⟨hdin, hrest⟩ := State.inv_iff.mp hs
      rw [ht]
      exact State.inv_iff.mpr ⟨Memory.wf_write hj hdin, hrest⟩
  | readByte id j => rw [hostReadByte_next h]; exact hs
  | reset => cases h; exact afterReset_inv s

/-- Settles O7: a step is idle or performs one host action, which keeps the invariant. -/
theorem stepKeepsInvariant : Obligations.StepKeepsInvariant := by
  intro s t hs h
  rcases step_next h with ⟨-, rfl⟩ | ⟨e, rest, -, he⟩
  · exact hs
  · exact perform_inv he hs

/-- Settles O8: both data buffers are empty, STATUS and OLEN are 0. -/
theorem resetMeetsInvariant : Obligations.ResetMeetsInvariant :=
  State.inv_iff.mpr ⟨Memory.wf_nil _, Memory.wf_nil _, rfl, Nat.zero_le _⟩

end Sys2Proof.Machine
end

section
/-! The read sets of the commands (10_state.md R36, R38): two machines that agree on them get the same results. -/

namespace Sys2Proof.Machine

/-! ### The mode commands -/

/-- The tests of a mode command read KEYLEN, DLEN and MAXLEN, and IVLEN for CBC (44_modes.md R181). -/
theorem modeError_congr {usesIv : Bool} {s u : State} (hk : s.keylen = u.keylen) (hd : s.dlen = u.dlen)
    (hm : s.maxLen = u.maxLen) (hiv : usesIv = true → s.ivlen = u.ivlen) : modeError usesIv s = modeError usesIv u := by
  cases usesIv with
  | true => simp only [modeError, hk, hd, hm, hiv rfl]
  | false => simp [modeError, hk, hd, hm]

/-- The chunks are read from DIN below DLEN alone (20_memory.md R60). -/
theorem chunk_congr {s u : State} (hd : s.dlen = u.dlen) (hin : ∀ j, j < s.dlen.toNat → s.dinByte j = u.dinByte j) :
    s.chunk = u.chunk := by
  funext i
  simp only [State.chunk, State.memRead, hd]
  refine List.map_congr_left fun j hj => ?_
  rw [List.mem_range] at hj
  refine hin _ ?_
  rw [hd]
  unfold chunkLen at hj
  omega

theorem cbcPrev_congr {s u : State} (hc : s.chunk = u.chunk) (iv : Block) : cbcPrev s iv = cbcPrev u iv := by
  funext i
  cases i with
  | zero => rfl
  | succ i => simp only [cbcPrev, hc]

theorem cbcPlain_congr {s u : State} (hc : s.chunk = u.chunk) (X : List Byte) (iv : Block) :
    cbcPlain X s iv = cbcPlain X u iv := by
  funext i
  simp only [cbcPlain, hc, cbcPrev_congr hc]

/-- A mode command raises the error of its first failing test (44_modes.md R181); CTRCRYPT alone does not test IVLEN. -/
theorem exec_eq_raise_of_modeError {i : Instr} (hi : i = .cbcenc ∨ i = .cbcdec ∨ i = .ctrcrypt) {s : State} {e : Err}
    (h : modeError (i ≠ .ctrcrypt) s = some e) : exec i s = s.raise e := by
  rcases hi with rfl | rfl | rfl
  · simp only [exec, execCbcenc, show modeError true s = some e from h]
  · simp only [exec, execCbcdec, show modeError true s = some e from h]
  · simp only [exec, execCtrcrypt, show modeError false s = some e from h]

/-- What two machines show alike after a mode command has succeeded in both: STATUS, OLEN and the output below it. -/
def State.SameOutput (s u : State) : Prop :=
  s.status = u.status ∧ s.olen = u.olen ∧ ∀ j, j < s.olen.toNat → s.doutByte j = u.doutByte j

section
variable {s u s' u' : State} (hkey : modeKey s = modeKey u) (hd : s.dlen = u.dlen)
include hkey hd

theorem execCbcenc_sameOutput (hc : s.chunk = u.chunk) (hiv : s.iv = u.iv) (hs : modeError true s = none)
    (hu : modeError true u = none) (hs' : execCbcenc s = .next s') (hu' : execCbcenc u = .next u') :
    s'.SameOutput u' := by
  obtain ⟨_, _, hns, hts, hbs⟩ := execCbcenc_next hs
  obtain ⟨_, _, hnu, htu, hbu⟩ := execCbcenc_next hu
  cases hns.symm.trans hs'
  cases hnu.symm.trans hu'
  refine ⟨by rw [hts, htu], by rw [hts, htu, hd], fun j hj => ?_⟩
  have hj : j < 16 * chunks s.dlen.toNat := by
    rw [hts] at hj
    exact Nat.lt_of_lt_of_le hj (Nat.mod_le ..)
  rw [hbs, hbu, ← hd, if_pos hj, if_pos hj, hkey, hc, hiv]

theorem execCbcdec_sameOutput (hc : s.chunk = u.chunk) (hiv : s.iv = u.iv) (hs : modeError true s = none)
    (hu : modeError true u = none) (hs' : execCbcdec s = .next s') (hu' : execCbcdec u = .next u') :
    s'.SameOutput u' := by
  obtain ⟨_, _, hns, hts, hbs⟩ := execCbcdec_next hs
  obtain ⟨_, _, hnu, htu, hbu⟩ := execCbcdec_next hu
  cases hns.symm.trans hs'
  cases hnu.symm.trans hu'
  refine ⟨by rw [hts, htu], by rw [hts, htu]; exact hd, fun j hj => ?_⟩
  have hj : j < s.dlen.toNat := by rwa [hts] at hj
  rw [hbs, hbu, ← hd, if_pos hj, if_pos hj, hkey, cbcPlain_congr hc, hiv]

theorem execCtrcrypt_sameOutput (hin : ∀ j, j < s.dlen.toNat → s.dinByte j = u.dinByte j) (hctr : s.ctr = u.ctr)
    (hs : modeError false s = none) (hu : modeError false u = none) (hs' : execCtrcrypt s = .next s')
    (hu' : execCtrcrypt u = .next u') : s'.SameOutput u' ∧ s'.ctr = u'.ctr := by
  obtain ⟨_, _, hns, hts, hbs⟩ := execCtrcrypt_next hs
  obtain ⟨_, _, hnu, htu, hbu⟩ := execCtrcrypt_next hu
  cases hns.symm.trans hs'
  cases hnu.symm.trans hu'
  refine ⟨⟨by rw [hts, htu], by rw [hts, htu]; exact hd, fun j hj => ?_⟩, by rw [hts, htu, hd, hctr]⟩
  have hj : j < s.dlen.toNat := by rwa [hts] at hj
  rw [hbs, hbu, ← hd, if_pos hj, if_pos hj, hin j hj, hkey, hctr]

end

/-- Two machines in which commands raise one error show it alike, and the error does not read as success. -/
theorem raise_status_agrees {e : Err} {s u s' u' : State} (hs : s.raise e = .next s') (hu : u.raise e = .next u') :
    s'.status = u'.status ∧ s'.status ≠ 0 := by
  cases hs
  cases hu
  exact ⟨rfl, e.code_ne_zero⟩

/-- Settles O16: the tests have the same outcome in both machines; where they pass, the key, the chunks and the chaining
start are the same. -/
theorem modeCommandsReadOnlyTheirItems : Obligations.ModeCommandsReadOnlyTheirItems := by
  intro i s u s' u' hi hk hkey hd hm hin hiv hctr hs' hu'
  have hX : modeKey s = modeKey u := congrArg keyExpand hkey
  have hc : s.chunk = u.chunk := chunk_congr hd hin
  have herr : modeError (i ≠ .ctrcrypt) s = modeError (i ≠ .ctrcrypt) u :=
    modeError_congr hk hd hm fun h => (hiv (of_decide_eq_true h)).1
  cases hs : modeError (i ≠ .ctrcrypt) s with
  | some e =>
    have hsr := exec_eq_raise_of_modeError hi hs
    have hur := exec_eq_raise_of_modeError hi (herr.symm.trans hs)
    obtain ⟨heq, hne⟩ := raise_status_agrees (hsr.symm.trans hs') (hur.symm.trans hu')
    exact ⟨heq, fun h0 => absurd h0 hne⟩
  | none =>
    have hu := herr.symm.trans hs
    rcases hi with rfl | rfl | rfl
    · obtain ⟨hstat, holen, hout⟩ := execCbcenc_sameOutput hX hd hc (hiv (by decide)).2 hs hu hs' hu'
      exact ⟨hstat, fun _ => ⟨holen, hout, fun h => absurd h (by decide)⟩⟩
    · obtain ⟨hstat, holen, hout⟩ := execCbcdec_sameOutput hX hd hc (hiv (by decide)).2 hs hu hs' hu'
      exact ⟨hstat, fun _ => ⟨holen, hout, fun h => absurd h (by decide)⟩⟩
    · obtain ⟨⟨hstat, holen, hout⟩, hctr'⟩ := execCtrcrypt_sameOutput hX hd hin (hctr rfl) hs hu hs' hu'
      exact ⟨hstat, fun _ => ⟨holen, hout, fun _ => hctr'⟩⟩

/-! ### KEYEXPAND, BLKENC, BLKDEC, CTRNEXT -/

/-- The first bytes of a register after a sequence is stored at its start are those of the sequence. -/
theorem slice_overwrite {n m : Nat} (v : Vector Byte n) (X : List Byte) (hm : m ≤ X.length) (hn : m ≤ n) :
    slice (overwrite v 0 X).toList 0 m = slice X 0 m := by
  refine List.ext_getElem (by simp; omega) fun j hj hj' => ?_
  have hlt : j < X.length := by simp at hj'; omega
  simp [slice, getElem_overwrite, hlt]

/-- The expansion of a legal Key fits XKEY (00_scope.md R8). -/
theorem length_keyExpand_keyArg_le {s : State} (h : legalKeyLen s.keylen.toNat = true) :
    (keyExpand s.keyArg).length ≤ 240 := by
  have hle := length_keyExpand_le s.keyArg
  rw [length_keyArg_of_legal h] at hle
  rw [legalKeyLen_iff] at h
  unfold xlen at hle
  omega

/-- After KEYEXPAND the ExpandedKey operand is made of the expansion of the Key alone. -/
theorem execKeyexpand_xkeyArg {s t : State} (hk : legalKeyLen s.keylen.toNat = true) (h : execKeyexpand s = .next t) :
    t.status = 0 ∧ t.xklen = BitVec.ofNat 8 (keyExpand s.keyArg).length ∧
      t.xkeyArg = slice (keyExpand s.keyArg) 0 t.xklen.toNat := by
  rcases execKeyexpand_cases s with ⟨hbad, -⟩ | ⟨-, hn⟩
  · rw [hk] at hbad; cases hbad
  · cases hn.symm.trans h
    have hle : (BitVec.ofNat 8 (keyExpand s.keyArg).length).toNat ≤ (keyExpand s.keyArg).length := Nat.mod_le ..
    exact ⟨rfl, rfl, slice_overwrite _ _ hle (hle.trans (length_keyExpand_keyArg_le hk))⟩

theorem execKeyexpand_reads {s u s' u' : State} (hk : s.keylen = u.keylen) (hkey : s.keyArg = u.keyArg)
    (hs' : execKeyexpand s = .next s') (hu' : execKeyexpand u = .next u') :
    s'.status = u'.status ∧ (s'.status = 0 → s'.xklen = u'.xklen ∧ s'.xkeyArg = u'.xkeyArg) := by
  cases hs : legalKeyLen s.keylen.toNat with
  | false =>
    have hu : legalKeyLen u.keylen.toNat = false := hk ▸ hs
    simp only [execKeyexpand, hs, hu] at hs' hu'
    obtain ⟨heq, hne⟩ := raise_status_agrees hs' hu'
    exact ⟨heq, fun h0 => absurd h0 hne⟩
  | true =>
    obtain ⟨hst, hsl, hsx⟩ := execKeyexpand_xkeyArg hs hs'
    obtain ⟨hut, hul, hux⟩ := execKeyexpand_xkeyArg (hk ▸ hs) hu'
    have hl : s'.xklen = u'.xklen := by rw [hsl, hul, hkey]
    exact ⟨hst.trans hut.symm, fun _ => ⟨hl, by rw [hsx, hux, hkey, hl]⟩⟩

/-- The tests of a block command read XKLEN and BLKLEN (42_block_cipher.md R152). -/
theorem blockError_congr {s u : State} (hx : s.xklen = u.xklen) (hb : s.blklen = u.blklen) :
    blockError s = blockError u := by
  simp only [blockError, hx, hb]

/-- BLKENC and BLKDEC raise the error of their first failing test, or put a function of BLK and the ExpandedKey in RES. -/
theorem execBlock_spec {i : Instr} (hi : i = .blkenc ∨ i = .blkdec) :
    ∃ cipher : Block → List Byte → Block, ∀ s : State,
      (∀ e, blockError s = some e → exec i s = s.raise e) ∧
      (blockError s = none → exec i s = State.succeed { s with res := cipher s.blk s.xkeyArg }) := by
  rcases hi with rfl | rfl
  · exact ⟨encrypt, fun s => ⟨fun e h => by simp only [exec, execBlkenc, h], fun h => by simp only [exec, execBlkenc, h]⟩⟩
  · exact ⟨decrypt, fun s => ⟨fun e h => by simp only [exec, execBlkdec, h], fun h => by simp only [exec, execBlkdec, h]⟩⟩

theorem execBlock_reads {i : Instr} (hi : i = .blkenc ∨ i = .blkdec) {s u s' u' : State} (hx : s.xklen = u.xklen)
    (hxkey : s.xkeyArg = u.xkeyArg) (hb : s.blklen = u.blklen) (hblk : s.blk = u.blk) (hs' : exec i s = .next s')
    (hu' : exec i u = .next u') : s'.status = u'.status ∧ (s'.status = 0 → s'.res = u'.res) := by
  obtain ⟨cipher, hspec⟩ := execBlock_spec hi
  obtain ⟨hsr, hsn⟩ := hspec s
  obtain ⟨hur, hun⟩ := hspec u
  have herr : blockError s = blockError u := blockError_congr hx hb
  cases hs : blockError s with
  | some e =>
    obtain ⟨heq, hne⟩ := raise_status_agrees ((hsr e hs).symm.trans hs') ((hur e (herr.symm.trans hs)).symm.trans hu')
    exact ⟨heq, fun h0 => absurd h0 hne⟩
  | none =>
    cases (hsn hs).symm.trans hs'
    cases (hun (herr.symm.trans hs)).symm.trans hu'
    exact ⟨rfl, fun _ => congrArg₂ cipher hblk hxkey⟩

/-- Settles O17: the tests and the results are functions of the read sets. -/
theorem registerCommandsReadOnlyTheirItems : Obligations.RegisterCommandsReadOnlyTheirItems := by
  refine fun s u s' u' => ⟨execKeyexpand_reads, fun i hi => execBlock_reads hi, fun hctr hs' hu' => ?_⟩
  cases hs'
  cases hu'
  exact ⟨rfl, hctr, congrArg inc128 hctr⟩

end Sys2Proof.Machine
end

section
/-! The host's writes to the scalars (10_state.md R29, R30), and the state after reset (R37). -/

namespace Sys2Proof.Machine

/-! ### Issuing a command -/

theorem storeScalar_of_lt {w v : Nat} (h : v < 2 ^ w) (put : BitVec w → Result) :
    storeScalar w v put = put (BitVec.ofNat w v) := if_pos h

/-- A host write of a byte to CMD issues it (10_state.md R29). -/
theorem hostWriteReg_cmd (op : Byte) (s : State) : hostWriteReg 0x00 op.toNat s = issue op s := by
  calc hostWriteReg 0x00 op.toNat s = issue (BitVec.ofNat 8 op.toNat) s := storeScalar_of_lt op.isLt fun x => issue x s
    _ = issue op s := by rw [BitVec.ofNat_toNat, BitVec.setWidth_eq]

/-- Settles O4: the pending write is performed, and issues the opcode. -/
theorem stepRunsDecodedCommand : Obligations.StepRunsDecodedCommand := by
  intro s op i rest hp hop
  calc step s = hostWriteReg 0x00 op.toNat { s with pending := rest } := by simp only [step, performPending, hp, perform]
    _ = issue op { s with pending := rest } := hostWriteReg_cmd ..
    _ = exec i { s with pending := rest } := by simp only [issue, hop]

/-! ### The length registers -/

/-- `s` with `v` in the length register `it`. -/
def State.withLength (s : State) (it : Item) (v : Nat) : State :=
  match it with
  | .keylen => { s with keylen := BitVec.ofNat 8 v }
  | .xklen => { s with xklen := BitVec.ofNat 8 v }
  | .blklen => { s with blklen := BitVec.ofNat 8 v }
  | .ivlen => { s with ivlen := BitVec.ofNat 8 v }
  | .dlen => { s with dlen := BitVec.ofNat 32 v }
  | _ => s

section
variable {it : Item} (hit : it = .keylen ∨ it = .xklen ∨ it = .blklen ∨ it = .ivlen ∨ it = .dlen) {v : Nat}
  (hv : v < if it = .dlen then 2 ^ 32 else 2 ^ 8) (s : State)
include hit hv

theorem hostWriteReg_lengthReg : hostWriteReg it.id v s = .next (s.withLength it v) := by
  rcases hit with rfl | rfl | rfl | rfl | rfl <;> simp only [hostWriteReg, ofId_id] <;> exact storeScalar_of_lt hv _

theorem scalar_withLength_same : (s.withLength it v).scalar it = some v := by
  rcases hit with rfl | rfl | rfl | rfl | rfl <;> exact congrArg some (Nat.mod_eq_of_lt hv)

end

theorem scalar_withLength_other {it other : Item} (h : other ≠ it) (s : State) (v : Nat) :
    (s.withLength it v).scalar other = s.scalar other := by
  cases it with
  | keylen | xklen | blklen | ivlen | dlen => cases other <;> simp_all [State.withLength, State.scalar]
  | _ => rfl

theorem bufferByte_withLength (s : State) (it : Item) (v : Nat) (buf : Item) (j : Nat) :
    (s.withLength it v).bufferByte buf j = s.bufferByte buf j := by
  cases it <;> rfl

/-- Settles O48: the write replaces one length register by a value that fits its width. -/
theorem lengthRegistersArePlainStorage : Obligations.LengthRegistersArePlainStorage := by
  intro it v s hit hv
  exact ⟨_, hostWriteReg_lengthReg hit hv s, scalar_withLength_same hit hv s,
    fun _ hne => scalar_withLength_other hne s v, bufferByte_withLength s it v⟩

/-! ### Reset -/

/-- Every scalar is 0 in the machine's first state (10_state.md R37). -/
theorem scalar_reset {it : Item} {v : Nat} (h : State.reset.scalar it = some v) : v = 0 := by
  cases it <;> cases h <;> rfl

/-- Every byte of the six small buffers is 0x00 in the machine's first state (10_state.md R37). -/
theorem bufferByte_reset {it : Item} {j : Nat} {b : Byte} (h : State.reset.bufferByte it j = some b) (hin : it ≠ .din)
    (hout : it ≠ .dout) : b = 0 := by
  cases it with
  | key | xkey | blk | iv | ctr | res => exact Vector.eq_of_mem_replicate (Vector.mem_of_getElem? h)
  | din => exact absurd rfl hin
  | dout => exact absurd rfl hout
  | _ => cases h

theorem scalar_afterReset (s : State) (it : Item) : s.afterReset.scalar it = State.reset.scalar it := by
  cases it <;> rfl

theorem bufferByte_afterReset (s : State) {it : Item} (hin : it ≠ .din) (hout : it ≠ .dout) (j : Nat) :
    s.afterReset.bufferByte it j = State.reset.bufferByte it j := by
  cases it with
  | din => exact absurd rfl hin
  | dout => exact absurd rfl hout
  | _ => rfl

/-- Settles O50: a reset leaves the scalars and the small buffers of the machine's first state, and no byte in DIN and
DOUT. -/
theorem resetValues : Obligations.ResetValues := by
  refine ⟨fun t ht => ?_, fun s => ⟨_, rfl, afterReset_maxLen s, afterReset_pending s⟩⟩
  rcases ht with rfl | ⟨s, hs⟩
  · exact ⟨fun _ _ => scalar_reset, fun _ _ _ => bufferByte_reset, fun _ => ⟨rfl, rfl⟩⟩
  · cases hs
    refine ⟨fun it v h => ?_, fun it j b h hin hout => ?_, fun _ => ⟨rfl, rfl⟩⟩
    · rw [scalar_afterReset] at h
      exact scalar_reset h
    · rw [bufferByte_afterReset s hin hout] at h
      exact bufferByte_reset h hin hout

/-- After reset KEYLEN and XKLEN are 0, so that the first test of every command but CTRNEXT fails (10_state.md R37). -/
theorem exec_afterReset {i : Instr} (h : i ≠ .ctrnext) (s : State) :
    exec i s.afterReset = s.afterReset.raise .invalidKeySize := by
  cases i with
  | ctrnext => exact absurd rfl h
  | _ => rfl

theorem ctrVal_inc128_zero : ctrVal (inc128 (Vector.replicate 16 0)) = 1 := by decide

/-- Settles O51: every command but CTRNEXT has a size test of a register that reset left 0. -/
theorem afterResetOnlyCtrnextSucceeds : Obligations.AfterResetOnlyCtrnextSucceeds := by
  intro s t h
  cases h
  exact ⟨fun i hi => ⟨_, exec_afterReset hi s⟩, _, execCtrnext_eq _, rfl, rfl, ctrVal_inc128_zero⟩

end Sys2Proof.Machine
end

section
/-! The host's moves (20_memory.md R56): which are performed, what a read answers (R59), what a byte write leaves alone, and
the order of the actions (R62). -/

namespace Sys2Proof.Machine

/-- Settles O5: a step is the performing of the list's head, and idle on the empty list. -/
theorem stepPerformsOldestAction : Obligations.StepPerformsOldestAction := by
  refine ⟨fun s e rest hp => ?_, fun s hp => ?_⟩
  · simp only [step, performPending, hp]
  · simp only [step, performPending, hp]

/-! ### Reads -/

/-- A buffer is what has bytes: an item with a byte at some index has a capacity. -/
theorem exists_capacity_of_bufferByte {s : State} {it : Item} {j : Nat} {b : Byte} (h : s.bufferByte it j = some b) :
    ∃ c, it.capacity s.maxLen = some c := by
  cases it with
  | key | xkey | blk | iv | ctr | res | din | dout => exact ⟨_, rfl⟩
  | _ => cases h

/-- A buffer has a byte at the indices below its capacity alone (20_memory.md R56). -/
theorem bufferByte_eq_none_iff {s : State} {it : Item} {c : Nat} (h : it.capacity s.maxLen = some c) (j : Nat) :
    s.bufferByte it j = none ↔ c ≤ j := by
  cases it with
  | key | xkey | blk | iv | ctr | res => cases h; exact Vector.getElem?_eq_none_iff
  | din | dout => cases h; simp [State.bufferByte]
  | _ => cases h

theorem hostReadReg_of_scalar {s : State} {it : Item} {v : Nat} (h : s.scalar it = some v) :
    hostReadReg it.id s = .next { s with replies := s.replies ++ [.scalar v] } := by
  cases it with
  | status | keylen | xklen | blklen | ivlen | dlen | olen => cases h; rfl
  | _ => cases h

theorem hostReadByte_of_bufferByte {s : State} {it : Item} {j : Nat} {b : Byte} (h : s.bufferByte it j = some b) :
    hostReadByte it.id j s = .next { s with replies := s.replies ++ [.byte b] } := by
  obtain ⟨c, hc⟩ := exists_capacity_of_bufferByte h
  simp only [hostReadByte, ofId_id, hc, h]

theorem hostReadByte_of_capacity_le {s : State} {it : Item} {c j : Nat} (h : it.capacity s.maxLen = some c) (hj : c ≤ j) :
    hostReadByte it.id j s = .refused .indexOutOfRange := by
  simp only [hostReadByte, ofId_id, h, (bufferByte_eq_none_iff h j).mpr hj]

theorem hostReadByte_of_scalarItem {s : State} {it : Item} (h : it.capacity s.maxLen = none) (j : Nat) :
    hostReadByte it.id j s = .refused .wrongKind := by
  simp only [hostReadByte, ofId_id, h]

/-- Settles O47: both reads add the value to the replies alone. -/
theorem hostReadsLeaveEngineAlone : Obligations.HostReadsLeaveEngineAlone := by
  intro it s
  exact ⟨fun _ h => hostReadReg_of_scalar h, fun _ _ h => hostReadByte_of_bufferByte h⟩

/-! ### Byte writes -/

/-- `s` with `b` at index `j` of the writable buffer `it`. -/
def State.withByte (s : State) (it : Item) (j : Nat) (b : Byte) : State :=
  match it with
  | .key => { s with key := s.key.setIfInBounds j b }
  | .xkey => { s with xkey := s.xkey.setIfInBounds j b }
  | .blk => { s with blk := s.blk.setIfInBounds j b }
  | .iv => { s with iv := s.iv.setIfInBounds j b }
  | .ctr => { s with ctr := s.ctr.setIfInBounds j b }
  | .din => { s with din := s.din.write j b }
  | _ => s

theorem set_eq_setIfInBounds {n j : Nat} (v : Vector Byte n) (h : j < n) (b : Byte) :
    v.set j b = v.setIfInBounds j b := by
  ext k hk
  rw [Vector.getElem_set, Vector.getElem_setIfInBounds]

theorem storeByte_of_lt {n j : Nat} (h : j < n) (v : Vector Byte n) (b : Byte) (put : Vector Byte n → State) :
    storeByte v j b put = .next (put (v.setIfInBounds j b)) := by
  rw [storeByte, dif_pos h, set_eq_setIfInBounds v h]

@[simp] theorem withByte_maxLen (s : State) (it : Item) (j : Nat) (b : Byte) :
    (s.withByte it j b).maxLen = s.maxLen := by
  cases it <;> rfl

@[simp] theorem withByte_doutByte (s : State) (it : Item) (j : Nat) (b : Byte) (k : Nat) :
    (s.withByte it j b).doutByte k = s.doutByte k := by
  cases it <;> rfl

theorem withByte_dinByte_other {it : Item} (h : it ≠ .din) (s : State) (j : Nat) (b : Byte) (k : Nat) :
    (s.withByte it j b).dinByte k = s.dinByte k := by
  cases it with
  | din => exact absurd rfl h
  | _ => rfl

theorem withByte_dinByte (s : State) (j : Nat) (b : Byte) (k : Nat) :
    (s.withByte .din j b).dinByte k = if k = j then b else s.dinByte k := by
  simp only [State.withByte, State.dinByte, Memory.read?_write]
  split <;> rfl

section
variable {s : State} {it : Item} {c j : Nat} (hw : it.hostWrites = true) (hc : it.capacity s.maxLen = some c)
  (hj : j < c) (b : Byte)
include hw hc hj

/-- A byte write to a writable buffer below its capacity completes (20_memory.md R56). -/
theorem hostWriteByte_buffer : hostWriteByte it.id j b s = .next (s.withByte it j b) := by
  cases it with
  | key | xkey | blk | iv | ctr =>
    cases hc
    simp only [hostWriteByte, ofId_id]
    exact storeByte_of_lt hj ..
  | din => cases hc; exact if_pos hj
  | res | dout => cases hw
  | _ => cases hc

theorem bufferByte_withByte_same : (s.withByte it j b).bufferByte it j = some b := by
  cases it with
  | key | xkey | blk | iv | ctr => cases hc; exact Vector.getElem?_setIfInBounds_self_of_lt hj
  | din => cases hc; simp only [State.bufferByte, withByte_maxLen, withByte_dinByte, if_pos hj, if_true]
  | res | dout => cases hw
  | _ => cases hc

end

theorem bufferByte_withByte_other_index (it : Item) {j k : Nat} (hk : k ≠ j) (s : State) (b : Byte) :
    (s.withByte it j b).bufferByte it k = s.bufferByte it k := by
  cases it with
  | key | xkey | blk | iv | ctr => exact Vector.getElem?_setIfInBounds_ne hk.symm
  | din => simp only [State.bufferByte, withByte_maxLen, withByte_dinByte, if_neg hk]
  | _ => rfl

theorem bufferByte_withByte_other_buffer {it buf : Item} (hbuf : buf ≠ it) (s : State) (j : Nat) (b : Byte) (k : Nat) :
    (s.withByte it j b).bufferByte buf k = s.bufferByte buf k := by
  cases buf with
  | key | xkey | blk | iv | ctr => cases it <;> simp_all [State.withByte, State.bufferByte]
  | din => simp only [State.bufferByte, withByte_maxLen, withByte_dinByte_other hbuf.symm]
  | dout => simp only [State.bufferByte, withByte_maxLen, withByte_doutByte]
  | res => cases it <;> rfl
  | _ => rfl

/-- A byte write leaves every other byte of every buffer as it was (20_memory.md R56); XKEY is another buffer than KEY
(R65). -/
theorem bufferByte_withByte_other {it buf : Item} {j k : Nat} (h : ¬ (buf = it ∧ k = j)) (s : State) (b : Byte) :
    (s.withByte it j b).bufferByte buf k = s.bufferByte buf k := by
  by_cases hbuf : buf = it
  · subst hbuf
    exact bufferByte_withByte_other_index buf (fun hk => h ⟨rfl, hk⟩) s b
  · exact bufferByte_withByte_other_buffer hbuf s j b k

theorem scalar_withByte (s : State) (it : Item) (j : Nat) (b : Byte) (r : Item) :
    (s.withByte it j b).scalar r = s.scalar r := by
  cases it <;> rfl

/-- Settles O49: the write replaces one byte of one buffer. -/
theorem hostByteWritesAreLocal : Obligations.HostByteWritesAreLocal := by
  intro it j c b s hw hc hj
  exact ⟨_, hostWriteByte_buffer hw hc hj b, bufferByte_withByte_same hw hc hj b,
    fun _ _ h => bufferByte_withByte_other h s b, scalar_withByte s it j b⟩

/-! ### The list of moves -/

/-- A result is a next state exactly where the move is well-formed, and a refusal where it is not (log 9). -/
def PerformedIff (wellFormed : Bool) (r : Result) : Prop :=
  (wellFormed = true → ∃ t, r = .next t) ∧ (wellFormed = false → ∃ e, r = .refused e)

theorem performedIff_next (t : State) : PerformedIff true (.next t) :=
  ⟨fun _ => ⟨t, rfl⟩, fun h => Bool.noConfusion h⟩

theorem performedIff_refused (e : Refusal) : PerformedIff false (.refused e) :=
  ⟨fun h => Bool.noConfusion h, fun _ => ⟨e, rfl⟩⟩

theorem performedIff_of_cases {p : Prop} [Decidable p] {r : Result} (hyes : p → ∃ t, r = .next t)
    (hno : ¬ p → ∃ e, r = .refused e) : PerformedIff p r :=
  ⟨fun h => hyes (of_decide_eq_true h), fun h => hno (of_decide_eq_false h)⟩

/-- A write to a writable scalar is performed exactly for the values that fit its width. -/
theorem performedIff_storeScalar {w : Nat} {put : BitVec w → Result} (hput : ∀ x, ∃ t, put x = .next t) (v : Nat) :
    PerformedIff (v < 2 ^ w) (storeScalar w v put) := by
  refine performedIff_of_cases (fun hv => ?_) fun hv => ⟨_, if_neg hv⟩
  rw [storeScalar_of_lt hv]
  exact hput _

/-- A write to a writable small buffer is performed exactly for the indices below its capacity. -/
theorem performedIff_storeByte {n : Nat} (v : Vector Byte n) (j : Nat) (b : Byte) (put : Vector Byte n → State) :
    PerformedIff (j < n) (storeByte v j b put) :=
  performedIff_of_cases (fun hj => ⟨_, storeByte_of_lt hj ..⟩) fun hj => ⟨_, dif_neg hj⟩

/-- Every byte written to CMD is executed, a reserved opcode too: it reports IllegalCommand (30_encoding.md R73). -/
theorem exists_issue_next (op : Byte) (s : State) : ∃ t, issue op s = .next t := by
  rcases issue_cases op s with ⟨i, -, hi⟩ | ⟨r, -, hr⟩
  · rcases exec_cases i s with ⟨e, he⟩ | ⟨t, ht, -⟩
    · exact ⟨_, hi.trans he⟩
    · exact ⟨t, hi.trans ht⟩
  · exact ⟨_, hr⟩

/-- A kind of move, which names what it acts on by id: an id that names nothing refuses it (20_memory.md R50), so it is
enough to look at the items. -/
theorem performedIff_of_items {s : State} {move : Nat → HostEvent}
    (hnone : ∀ id, Item.ofId id = none →
      (move id).wellFormed s.maxLen = false ∧ perform (move id) s = .refused .noSuchItem)
    (hitem : ∀ it : Item, PerformedIff ((move it.id).wellFormed s.maxLen) (perform (move it.id) s)) (id : Nat) :
    PerformedIff ((move id).wellFormed s.maxLen) (perform (move id) s) := by
  cases h : Item.ofId id with
  | none =>
    obtain ⟨hwf, href⟩ := hnone id h
    rw [hwf, href]
    exact performedIff_refused _
  | some it =>
    rw [id_of_ofId h]
    exact hitem it

theorem performedIff_writeReg (it : Item) (v : Nat) (s : State) :
    PerformedIff ((HostEvent.writeReg it.id v).wellFormed s.maxLen) (hostWriteReg it.id v s) := by
  cases it with
  | cmd => exact performedIff_storeScalar (fun op => exists_issue_next op s) v
  | keylen | xklen | blklen | ivlen | dlen => exact performedIff_storeScalar (fun _ => ⟨_, rfl⟩) v
  | _ => exact performedIff_refused _

theorem performedIff_readReg (it : Item) (s : State) :
    PerformedIff ((HostEvent.readReg it.id).wellFormed s.maxLen) (hostReadReg it.id s) := by
  cases it with
  | status | keylen | xklen | blklen | ivlen | dlen | olen => exact performedIff_next _
  | _ => exact performedIff_refused _

theorem performedIff_writeByte (it : Item) (j : Nat) (b : Byte) (s : State) :
    PerformedIff ((HostEvent.writeByte it.id j b).wellFormed s.maxLen) (hostWriteByte it.id j b s) := by
  simp only [HostEvent.wellFormed, hostWriteByte, ofId_id]
  cases it with
  | key | xkey | blk | iv | ctr => exact performedIff_storeByte ..
  | din => exact performedIff_of_cases (p := j < s.maxLen) (fun hj => ⟨_, if_pos hj⟩) fun hj => ⟨_, if_neg hj⟩
  | _ => exact performedIff_refused _

/-- A buffer's bytes are what the host may read: no buffer is write-only (10_state.md R20). -/
theorem hostReads_of_capacity {it : Item} {maxLen c : Nat} (h : it.capacity maxLen = some c) : it.hostReads = true := by
  cases it with
  | cmd => cases h
  | _ => rfl

theorem performedIff_readByte (it : Item) (j : Nat) (s : State) :
    PerformedIff ((HostEvent.readByte it.id j).wellFormed s.maxLen) (hostReadByte it.id j s) := by
  cases hc : it.capacity s.maxLen with
  | none =>
    rw [hostReadByte_of_scalarItem hc]
    simp only [HostEvent.wellFormed, ofId_id, hc, Bool.and_false]
    exact performedIff_refused _
  | some c =>
    simp only [HostEvent.wellFormed, ofId_id, hc, hostReads_of_capacity hc, Bool.true_and]
    refine performedIff_of_cases (fun hj => ?_) fun hj => ⟨_, hostReadByte_of_capacity_le hc (Nat.not_lt.mp hj)⟩
    have hb : s.bufferByte it j ≠ none := mt (bufferByte_eq_none_iff hc j).mp (Nat.not_le.mpr hj)
    obtain ⟨b, hb⟩ := Option.ne_none_iff_exists'.mp hb
    exact ⟨_, hostReadByte_of_bufferByte hb⟩

/-- Settles O46: each kind of move, on each item, is performed exactly where it is well-formed. -/
theorem hostMovesAreThoseOfTheList : Obligations.HostMovesAreThoseOfTheList := by
  intro e s
  show PerformedIff (e.wellFormed s.maxLen) (perform e s)
  cases e with
  | writeReg id v =>
    refine performedIff_of_items (move := fun id => .writeReg id v) (fun id h => ?_) (performedIff_writeReg · v s) id
    simp only [HostEvent.wellFormed, perform, hostWriteReg, h, and_self]
  | readReg id =>
    refine performedIff_of_items (move := .readReg) (fun id h => ?_) (performedIff_readReg · s) id
    simp only [HostEvent.wellFormed, perform, hostReadReg, h, and_self]
  | writeByte id j b =>
    refine performedIff_of_items (move := fun id => .writeByte id j b) (fun id h => ?_)
      (performedIff_writeByte · j b s) id
    simp only [HostEvent.wellFormed, perform, hostWriteByte, h, and_self]
  | readByte id j =>
    refine performedIff_of_items (move := fun id => .readByte id j) (fun id h => ?_) (performedIff_readByte · j s) id
    simp only [HostEvent.wellFormed, perform, hostReadByte, h, and_self]
  | reset => exact performedIff_next _

end Sys2Proof.Machine
end

section
/-! The command encoding (30_encoding.md R70 to R74): seven opcodes, every other byte reserved; and what the line LOAD
of a host program does (R76). -/

namespace Sys2Proof

/-! ### The opcode map -/

/-- The decoder gives back the command an opcode of R71 encodes. -/
@[simp] theorem decode_encode (i : Instr) : decode (encode i) = .ok i := by
  cases i with
  | keyexpand => exact Laws.DecodeEncode.keyexpand rfl
  | blkenc => exact Laws.DecodeEncode.blkenc rfl
  | blkdec => exact Laws.DecodeEncode.blkdec rfl
  | cbcenc => exact Laws.DecodeEncode.cbcenc rfl
  | cbcdec => exact Laws.DecodeEncode.cbcdec rfl
  | ctrcrypt => exact Laws.DecodeEncode.ctrcrypt rfl
  | ctrnext => exact Laws.DecodeEncode.ctrnext rfl

/-- Settles O1: no command has an operand, so the hypothesis of well-formedness excludes none. -/
theorem decodeReadsEncodedCommand : Obligations.DecodeReadsEncodedCommand :=
  fun i _ => decode_encode i

@[simp] theorem legalOpcode_encode (i : Instr) : legalOpcode (encode i) = true := by
  cases i <;> rfl

theorem legalOpcode_eq_false_iff (op : Byte) : legalOpcode op = false ↔ op.toNat = 0 ∨ 8 ≤ op.toNat := by
  simp only [legalOpcode, Bool.and_eq_false_iff, decide_eq_false_iff_not]
  omega

/-- A byte is an opcode of R71, or R73 reserves it and the decoder says so. -/
theorem encoded_or_reserved (op : Byte) :
    (∃ i, encode i = op) ∨ (legalOpcode op = false ∧ decode op = .error (.reservedOpcode op)) := by
  unfold decode
  split
  case h_1 h => exact .inl ⟨.keyexpand, BitVec.eq_of_toNat_eq h.symm⟩
  case h_2 h => exact .inl ⟨.blkenc, BitVec.eq_of_toNat_eq h.symm⟩
  case h_3 h => exact .inl ⟨.blkdec, BitVec.eq_of_toNat_eq h.symm⟩
  case h_4 h => exact .inl ⟨.cbcenc, BitVec.eq_of_toNat_eq h.symm⟩
  case h_5 h => exact .inl ⟨.cbcdec, BitVec.eq_of_toNat_eq h.symm⟩
  case h_6 h => exact .inl ⟨.ctrcrypt, BitVec.eq_of_toNat_eq h.symm⟩
  case h_7 h => exact .inl ⟨.ctrnext, BitVec.eq_of_toNat_eq h.symm⟩
  case h_8 =>
    have h : op.toNat = 0 ∨ 8 ≤ op.toNat := by grind
    exact .inr ⟨(legalOpcode_eq_false_iff op).mpr h, rfl⟩

theorem decode_of_reserved {op : Byte} (h : legalOpcode op = false) : decode op = .error (.reservedOpcode op) := by
  rcases encoded_or_reserved op with ⟨i, rfl⟩ | ⟨-, hdec⟩
  · rw [legalOpcode_encode] at h
    cases h
  · exact hdec

/-- Settles O2: the opcodes are the encodings of the commands, and no encoding is reserved. -/
theorem decodeTotalOnEightBits : Obligations.DecodeTotalOnEightBits := by
  intro op
  rcases encoded_or_reserved op with ⟨i, rfl⟩ | ⟨hres, hdec⟩
  · exact .inl ⟨legalOpcode_encode i, i, rfl, decode_encode i⟩
  · refine .inr ⟨hres, fun i hi => ?_, hdec⟩
    rw [← hi, legalOpcode_encode] at hres
    cases hres

/-- Settles O3: each word is an encoding, or lies outside 1 to 7. -/
theorem opcodeWordsDecode : Obligations.OpcodeWordsDecode :=
  ⟨decode_encode .keyexpand, decode_encode .blkenc, decode_encode .blkdec, decode_encode .cbcenc, decode_encode .cbcdec,
    decode_encode .ctrcrypt, decode_encode .ctrnext, decode_of_reserved rfl, decode_of_reserved rfl,
    decode_of_reserved rfl⟩

namespace Machine

theorem issue_of_reserved {op : Byte} (h : legalOpcode op = false) (s : State) :
    issue op s = s.raise .illegalCommand := by
  simp only [issue, decode_of_reserved h]

/-- Settles O6: the decoder answers no command, and IllegalCommand has code 5. -/
theorem reservedOpcodeReportsIllegalCommand : Obligations.ReservedOpcodeReportsIllegalCommand := by
  intro s op hop
  have hres : legalOpcode op = false := (legalOpcode_eq_false_iff op).mpr (hop.imp_left (congrArg BitVec.toNat))
  exact ⟨decode_of_reserved hres, _, issue_of_reserved hres s⟩

/-! ### LOAD: the byte writes -/

/-- `s` with the bytes of a sequence at consecutive indices from `a` of the writable buffer `it`. -/
def State.withBytes (s : State) (it : Item) : Nat → List Byte → State
  | _, [] => s
  | a, b :: bs => (s.withByte it a b).withBytes it (a + 1) bs

/-- The byte writes of a LOAD are performed where the sequence fits the buffer (20_memory.md R56). -/
theorem performAll_writeBytes_buffer {it : Item} (hw : it.hostWrites = true) {c : Nat} (bs : List Byte) (s : State)
    (a : Nat) (hc : it.capacity s.maxLen = some c) (hfit : a + bs.length ≤ c) :
    performAll (writeBytes it a bs) s = .next (s.withBytes it a bs) := by
  induction bs generalizing s a with
  | nil => rfl
  | cons b bs ih =>
    rw [List.length_cons] at hfit
    simp only [writeBytes, performAll, perform, hostWriteByte_buffer hw hc (show a < c by omega) b]
    exact ih (s.withByte it a b) (a + 1) (by rwa [withByte_maxLen]) (by omega)

@[simp] theorem withBytes_maxLen (s : State) (it : Item) (a : Nat) (bs : List Byte) :
    (s.withBytes it a bs).maxLen = s.maxLen := by
  induction bs generalizing s a with
  | nil => rfl
  | cons b bs ih => exact (ih ..).trans (withByte_maxLen ..)

theorem scalar_withBytes (s : State) (it : Item) (a : Nat) (bs : List Byte) (r : Item) :
    (s.withBytes it a bs).scalar r = s.scalar r := by
  induction bs generalizing s a with
  | nil => rfl
  | cons b bs ih => exact (ih ..).trans (scalar_withByte ..)

/-- The writes leave every byte outside the sequence's place as it was. -/
theorem bufferByte_withBytes_other {it buf : Item} {a j : Nat} {bs : List Byte}
    (h : ¬ (buf = it ∧ a ≤ j ∧ j < a + bs.length)) (s : State) :
    (s.withBytes it a bs).bufferByte buf j = s.bufferByte buf j := by
  induction bs generalizing s a with
  | nil => rfl
  | cons b bs ih =>
    rw [List.length_cons] at h
    calc (s.withBytes it a (b :: bs)).bufferByte buf j
      _ = (s.withByte it a b).bufferByte buf j := ih (fun ⟨hbuf, hlo, hhi⟩ => h ⟨hbuf, by omega, by omega⟩) _
      _ = s.bufferByte buf j := bufferByte_withByte_other (fun ⟨hbuf, hj⟩ => h ⟨hbuf, by omega, by omega⟩) s b

/-- The sequence's bytes stand at its place: each is written once, and no later write touches it. -/
theorem bufferByte_withBytes_same {it : Item} (hw : it.hostWrites = true) {c : Nat} (bs : List Byte) (s : State)
    (a : Nat) (hc : it.capacity s.maxLen = some c) (hfit : a + bs.length ≤ c) {i : Nat} (hi : i < bs.length) :
    (s.withBytes it a bs).bufferByte it (a + i) = bs[i]? := by
  induction bs generalizing s a i with
  | nil => cases hi
  | cons b bs ih =>
    rw [List.length_cons] at hfit hi
    cases i with
    | zero =>
      calc (s.withBytes it a (b :: bs)).bufferByte it a
        _ = (s.withByte it a b).bufferByte it a :=
          bufferByte_withBytes_other (a := a + 1) (bs := bs) (fun ⟨_, hlo, _⟩ => by omega) (s.withByte it a b)
        _ = some b := bufferByte_withByte_same hw hc (by omega) b
    | succ i =>
      rw [← Nat.add_assoc, Nat.add_right_comm]
      exact ih (s.withByte it a b) (a + 1) (by rwa [withByte_maxLen]) (by omega) (by omega)

/-! ### LOAD: the length register -/

/-- `s` with `n` in the length register of the buffer `it`, where it has one. -/
def State.withLengthOf (s : State) (it : Item) (n : Nat) : State :=
  match it.lengthReg with
  | some r => s.withLength r n
  | none => s

/-- A buffer's length register is one of five, and holds every length up to the capacity (00_scope.md R9 for DIN). -/
theorem lengthReg_holds_capacity {s : State} {it r : Item} {c n : Nat} (hr : it.lengthReg = some r)
    (hc : it.capacity s.maxLen = some c) (hn : n ≤ c) :
    (r = .keylen ∨ r = .xklen ∨ r = .blklen ∨ r = .ivlen ∨ r = .dlen) ∧ n < if r = .dlen then 2 ^ 32 else 2 ^ 8 := by
  obtain ⟨-, -, hmax⟩ := maxLen_legal s
  cases it with
  | key | xkey | blk | iv => cases hr; cases hc; exact ⟨by decide, Nat.lt_of_le_of_lt hn (by decide)⟩
  | din =>
    cases hr; cases hc
    exact ⟨by decide, show n < 2 ^ 32 by omega⟩
  | _ => cases hr

section
variable {s : State} {it : Item} {c n : Nat} (hc : it.capacity s.maxLen = some c) (hn : n ≤ c)
include hc hn

theorem performAll_writeLength : performAll (writeLength it n) s = .next (s.withLengthOf it n) := by
  cases hr : it.lengthReg with
  | none => simp only [writeLength, State.withLengthOf, hr, performAll]
  | some r =>
    obtain ⟨hreg, hfit⟩ := lengthReg_holds_capacity hr hc hn
    simp only [writeLength, State.withLengthOf, hr, performAll, perform, hostWriteReg_lengthReg hreg hfit]

theorem scalar_withLengthOf_same {r : Item} (hr : it.lengthReg = some r) :
    (s.withLengthOf it n).scalar r = some n := by
  obtain ⟨hreg, hfit⟩ := lengthReg_holds_capacity hr hc hn
  simp only [State.withLengthOf, hr, scalar_withLength_same hreg hfit]

end

theorem scalar_withLengthOf_other {it r : Item} (hr : it.lengthReg ≠ some r) (s : State) (n : Nat) :
    (s.withLengthOf it n).scalar r = s.scalar r := by
  unfold State.withLengthOf
  split
  · next q hq => exact scalar_withLength_other (fun h => hr (hq.trans (congrArg some h.symm))) s n
  · rfl

theorem bufferByte_withLengthOf (s : State) (it : Item) (n : Nat) (buf : Item) (j : Nat) :
    (s.withLengthOf it n).bufferByte buf j = s.bufferByte buf j := by
  unfold State.withLengthOf
  split
  · exact bufferByte_withLength ..
  · rfl

/-! ### LOAD: the line -/

/-- A well-formed LOAD names a buffer that the host may write and that has room for the bytes (R76). -/
theorem load_fits {b : Item} {bytes : List Byte} {maxLen : Nat} (h : (HostLine.load b bytes).wellFormed maxLen = true) :
    b.hostWrites = true ∧ ∃ c, b.capacity maxLen = some c ∧ bytes.length ≤ c := by
  cases hc : b.capacity maxLen with
  | none => simp [HostLine.wellFormed, hc] at h
  | some c =>
    simp only [HostLine.wellFormed, hc, Bool.and_eq_true, decide_eq_true_eq] at h
    obtain ⟨hw, hfit, -⟩ := h
    exact ⟨hw, c, rfl, hfit⟩

/-- A LOAD is its byte writes, then the write of their number. -/
theorem runLines_load {b : Item} {bytes : List Byte} {s : State}
    (h : (HostLine.load b bytes).wellFormed s.maxLen = true) :
    runLines [.load b bytes] s = .next ((s.withBytes b 0 bytes).withLengthOf b bytes.length) := by
  obtain ⟨hw, c, hc, hfit⟩ := load_fits h
  simp only [runLines, List.flatMap_singleton, HostLine.expand, performAll_append,
    performAll_writeBytes_buffer hw bytes s 0 hc (by omega)]
  exact performAll_writeLength (by rwa [withBytes_maxLen]) hfit

/-- Settles O52: each byte write and the write of the length register has its effect and its frame. -/
theorem loadFillsBufferAndLength : Obligations.LoadFillsBufferAndLength := by
  intro b bytes s h
  obtain ⟨hw, c, hc, hfit⟩ := load_fits h
  refine ⟨_, runLines_load h, fun j hj => ?_, fun buf j hj => ?_, fun r hr => ?_, fun r hr => ?_⟩
  · rw [bufferByte_withLengthOf]
    simpa using bufferByte_withBytes_same hw bytes s 0 hc (by omega) hj
  · rw [bufferByte_withLengthOf]
    exact bufferByte_withBytes_other (fun ⟨hbuf, _, hlt⟩ => hj ⟨hbuf, by omega⟩) s
  · exact scalar_withLengthOf_same (by rwa [withBytes_maxLen]) hfit hr
  · rw [scalar_withLengthOf_other hr, scalar_withBytes]

end Machine

end Sys2Proof
end

section
/-! The field of 40_gf_and_tables.md R100 and its tables. The multiplier of R105 is linear in its first operand over xor,
so multiplication by the generator 0x03 passes through it, and the product of two powers is the power of the sum of their
exponents: the table form of R102. -/

namespace Sys2Proof.Machine

/-! ### The bitwise multiplier (R105) -/

/-- The product of `a` and the polynomial `x` of R100, which R105's loop computes once a pass. -/
def timesX (a : Byte) : Byte := if a.getLsbD 7 then (a <<< 1) ^^^ 0x1b else a <<< 1

theorem gfmulLoop_succ (n : Nat) (p a b : Byte) :
    gfmulLoop (n + 1) p a b = gfmulLoop n (if b.getLsbD 0 then p ^^^ a else p) (timesX a) (b >>> 1) := rfl

theorem timesX_xor (a b : Byte) : timesX (a ^^^ b) = timesX a ^^^ timesX b := by
  simp only [timesX, BitVec.getLsbD_xor, BitVec.shiftLeft_xor_distrib]
  cases a.getLsbD 7 <;> cases b.getLsbD 7
  case false.false => rfl
  case false.true => exact BitVec.xor_assoc ..
  case true.false =>
    change a <<< 1 ^^^ b <<< 1 ^^^ 0x1b = (a <<< 1 ^^^ 0x1b) ^^^ b <<< 1
    ac_rfl
  case true.true =>
    calc a <<< 1 ^^^ b <<< 1
        = a <<< 1 ^^^ b <<< 1 ^^^ (0x1b ^^^ 0x1b) := by simp
      _ = (a <<< 1 ^^^ 0x1b) ^^^ (b <<< 1 ^^^ 0x1b) := by ac_rfl

theorem gfmulLoop_xor (n : Nat) (p q a c b : Byte) :
    gfmulLoop n (p ^^^ q) (a ^^^ c) b = gfmulLoop n p a b ^^^ gfmulLoop n q c b := by
  induction n generalizing p q a c b with
  | zero => rfl
  | succ n ih =>
    simp only [gfmulLoop_succ, timesX_xor, ← ih]
    congr 1
    split <;> ac_rfl

theorem gfmulLoop_timesX (n : Nat) (p a b : Byte) :
    gfmulLoop n (timesX p) (timesX a) b = timesX (gfmulLoop n p a b) := by
  induction n generalizing p a b with
  | zero => rfl
  | succ n ih =>
    simp only [gfmulLoop_succ, ← ih]
    congr 1
    split <;> simp [timesX_xor]

theorem gfmulLoop_zero_right (n : Nat) (p a : Byte) : gfmulLoop n p a 0 = p := by
  induction n generalizing a with
  | zero => rfl
  | succ n ih => exact ih _

theorem gfmulLoop_zero_left (n : Nat) (b : Byte) : gfmulLoop n 0 0 b = 0 := by
  simpa using gfmulLoop_xor n 0 0 0 0 b

/-- Multiplication by the generator of R103 is `a ↦ a xor x·a`. -/
theorem gfmulBitwise_three (a : Byte) : gfmulBitwise a 0x03 = a ^^^ timesX a := by
  change gfmulLoop 6 (0 ^^^ a ^^^ timesX a) (timesX (timesX a)) 0 = _
  rw [gfmulLoop_zero_right]
  simp

theorem gfmulBitwise_three_left (a b : Byte) :
    gfmulBitwise (gfmulBitwise a 0x03) b = gfmulBitwise (gfmulBitwise a b) 0x03 := by
  calc gfmulBitwise (gfmulBitwise a 0x03) b
      = gfmulLoop 8 (0 ^^^ timesX 0) (a ^^^ timesX a) b := by rw [gfmulBitwise_three]; rfl
    _ = gfmulBitwise a b ^^^ timesX (gfmulBitwise a b) := by rw [gfmulLoop_xor, gfmulLoop_timesX]; rfl
    _ = gfmulBitwise (gfmulBitwise a b) 0x03 := (gfmulBitwise_three _).symm

theorem gfmulBitwise_zero_left (b : Byte) : gfmulBitwise 0 b = 0 := gfmulLoop_zero_left 8 b

theorem gfmulBitwise_zero_right (a : Byte) : gfmulBitwise a 0 = 0 := gfmulLoop_zero_right 8 0 a

theorem gfmulBitwise_one_left : ∀ b : Byte, gfmulBitwise 1 b = b := by decide +kernel

/-! ### The exp and log tables (R103, R104)

The five facts about the printed entries from which everything else follows; each goes through the entries once. -/

theorem expT_succ : ∀ i : Fin 254, expT (i + 1) = gfmulBitwise (expT i) 0x03 := by decide +kernel

theorem logT_lt : ∀ a : Byte, a ≠ 0 → logT a < 255 := by decide +kernel

theorem expT_logT : ∀ a : Byte, a ≠ 0 → expT (logT a) = a := by decide +kernel

theorem expT_ne_zero : ∀ i : Fin 255, expT i ≠ 0 := by decide +kernel

theorem logT_expT : ∀ i : Fin 255, logT (expT i) = i := by decide +kernel

/-- Settles O33: each claim is about the printed entries the rules read. -/
theorem expAndLogTables : Obligations.ExpAndLogTables :=
  ⟨rfl, expT_succ, fun a ha => ⟨logT_lt a ha, expT_logT a ha⟩⟩

/-- Powers of the generator repeat after 255: the product of EXP[254] and 0x03 is EXP[0]. -/
theorem expT_succ_mod (i : Nat) : expT ((i + 1) % 255) = gfmulBitwise (expT (i % 255)) 0x03 := by
  rcases Nat.lt_or_ge (i % 255) 254 with hlt | hge
  · rw [show (i + 1) % 255 = i % 255 + 1 by omega]
    exact expT_succ ⟨i % 255, hlt⟩
  · rw [show (i + 1) % 255 = 0 by omega, show i % 255 = 254 by omega]
    decide +kernel

/-- The law of exponents in the field: the sum of two logarithms is taken modulo 255. -/
theorem gfmulBitwise_expT (i j : Nat) :
    gfmulBitwise (expT (i % 255)) (expT (j % 255)) = expT ((i + j) % 255) := by
  induction i with
  | zero => rw [Nat.zero_add]; exact gfmulBitwise_one_left _
  | succ i ih => rw [expT_succ_mod, gfmulBitwise_three_left, ih, Nat.add_right_comm, expT_succ_mod]

/-! ### The table multiplier (R102) -/

theorem gfmul_of_ne_zero {a b : Byte} (ha : a ≠ 0) (hb : b ≠ 0) : gfmul a b = expT ((logT a + logT b) % 255) :=
  if_neg (not_or.mpr ⟨ha, hb⟩)

@[simp] theorem gfmul_zero_left (b : Byte) : gfmul 0 b = 0 := by simp [gfmul]

@[simp] theorem gfmul_zero_right (a : Byte) : gfmul a 0 = 0 := by simp [gfmul]

theorem gfmul_comm (a b : Byte) : gfmul a b = gfmul b a := by
  simp only [gfmul, or_comm, Nat.add_comm]

/-- Settles O31: operands other than 0 are powers of the generator, and the law of exponents multiplies those. -/
theorem gfmulIsPolynomialProduct : Obligations.GfmulIsPolynomialProduct := by
  intro a b
  by_cases ha : a = 0
  · rw [ha, gfmul_zero_left, gfmulBitwise_zero_left]
  by_cases hb : b = 0
  · rw [hb, gfmul_zero_right, gfmulBitwise_zero_right]
  calc gfmul a b
      = expT ((logT a + logT b) % 255) := gfmul_of_ne_zero ha hb
    _ = gfmulBitwise (expT (logT a % 255)) (expT (logT b % 255)) := (gfmulBitwise_expT _ _).symm
    _ = gfmulBitwise a b := by
      rw [Nat.mod_eq_of_lt (logT_lt a ha), Nat.mod_eq_of_lt (logT_lt b hb), expT_logT a ha, expT_logT b hb]

@[simp] theorem gfmul_one_left (b : Byte) : gfmul 1 b = b := by
  rw [gfmulIsPolynomialProduct, gfmulBitwise_one_left]

/-- Settles O32: the three laws hold for every operand, and the four products are read from the tables. -/
theorem gfmulCornerCases : Obligations.GfmulCornerCases :=
  ⟨fun b => ⟨gfmul_zero_left b, gfmul_zero_right b, gfmul_one_left b⟩, gfmul_comm, by decide +kernel⟩

/-! ### Inverses and the substitution tables (R107, R108) -/

/-- The multiplicative inverse of R107, with `inv(0) = 0`: the power whose exponent makes the sum of R102 0 modulo 255. -/
def gfInv (a : Byte) : Byte := if a = 0 then 0 else expT ((255 - logT a) % 255)

/-- The affine map `A` of R107. -/
def sboxAffine (b : Byte) : Byte :=
  b ^^^ b.rotateLeft 1 ^^^ b.rotateLeft 2 ^^^ b.rotateLeft 3 ^^^ b.rotateLeft 4 ^^^ 0x63

theorem gfInv_of_ne_zero {a : Byte} (ha : a ≠ 0) : gfInv a = expT ((255 - logT a) % 255) := if_neg ha

theorem gfmulBitwise_gfInv {a : Byte} (ha : a ≠ 0) : gfmulBitwise a (gfInv a) = 1 := by
  have hlog := logT_lt a ha
  calc gfmulBitwise a (gfInv a)
      = gfmulBitwise (expT (logT a % 255)) (expT ((255 - logT a) % 255)) := by
        rw [gfInv_of_ne_zero ha, Nat.mod_eq_of_lt hlog, expT_logT a ha]
    _ = expT 0 := by
        rw [gfmulBitwise_expT]
        congr 1
        omega
    _ = 1 := rfl

/-- Inverses are unique: a product 1 makes the logarithms sum to 0 modulo 255. -/
theorem eq_gfInv_of_gfmulBitwise_eq_one {a b : Byte} (h : gfmulBitwise a b = 1) : b = gfInv a := by
  have ha : a ≠ 0 := by
    rintro rfl
    rw [gfmulBitwise_zero_left] at h
    cases h
  have hb : b ≠ 0 := by
    rintro rfl
    rw [gfmulBitwise_zero_right] at h
    cases h
  have hsum : (logT a + logT b) % 255 = 0 := by
    have hlt : (logT a + logT b) % 255 < 255 := Nat.mod_lt _ (by decide)
    rw [← gfmulIsPolynomialProduct, gfmul_of_ne_zero ha hb] at h
    have hlog := logT_expT ⟨_, hlt⟩
    rw [h] at hlog
    exact hlog.symm
  have hla := logT_lt a ha
  have hlb := logT_lt b hb
  rw [gfInv_of_ne_zero ha, show (255 - logT a) % 255 = logT b by omega, expT_logT b hb]

theorem sbox_eq_affine_gfInv : ∀ a : Byte, sbox a = sboxAffine (gfInv a) := by decide +kernel

theorem invSbox_sbox : ∀ a : Byte, invSbox (sbox a) = a := by decide +kernel

theorem sbox_invSbox : ∀ a : Byte, sbox (invSbox a) = a := by decide +kernel

theorem sbox_ne_self : ∀ a : Byte, sbox a ≠ a := by decide +kernel

/-- Settles O35: both compositions, over all 256 entries of the printed tables. -/
theorem inverseSbox : Obligations.InverseSbox :=
  fun a => ⟨invSbox_sbox a, sbox_invSbox a⟩

/-- Settles O34: the byte `b` of the first clause is the inverse R107 reads, and INVSBOX makes SBOX a permutation. -/
theorem sboxConstruction : Obligations.SboxConstruction := by
  refine ⟨fun a b h => ?_, fun a ha => ⟨gfInv a, gfmulBitwise_gfInv ha⟩,
    Function.bijective_iff_has_inverse.mpr ⟨invSbox, invSbox_sbox, sbox_invSbox⟩, sbox_ne_self⟩
  have hb : b = gfInv a := by
    rcases h with ⟨rfl, rfl⟩ | h
    · rfl
    · exact eq_gfInv_of_gfmulBitwise_eq_one h
  rw [hb]
  exact sbox_eq_affine_gfInv a

/-! ### The mix-column matrices (R110) -/

/-- Settles O36: the sixteen dot products are evaluated, and so is each row beside the one above it. -/
theorem inverseMixMatrix : Obligations.InverseMixMatrix :=
  ⟨by decide +kernel, by decide⟩

end Sys2Proof.Machine
end

section
/-! Key expansion (41_key_expansion.md): the words of R131 as bytes, the generic form of R123 as a run of groups, and the
three forms of the key schedule compared. -/

namespace Sys2Proof.Machine

/-! ### A list of words as bytes -/

/-- The bytes of a list of words, in order. -/
def wordBytes (ws : List Word4) : List Byte := ws.flatMap Vector.toList

@[simp] theorem wordBytes_nil : wordBytes [] = [] := rfl

@[simp] theorem wordBytes_append (ws vs : List Word4) : wordBytes (ws ++ vs) = wordBytes ws ++ wordBytes vs :=
  List.flatMap_append

@[simp] theorem wordBytes_singleton (w : Word4) : wordBytes [w] = w.toList := List.flatMap_singleton ..

theorem wordBytes_cons (w : Word4) (ws : List Word4) : wordBytes (w :: ws) = w.toList ++ wordBytes ws :=
  List.flatMap_cons ..

@[simp] theorem length_wordBytes (ws : List Word4) : (wordBytes ws).length = 4 * ws.length := by
  induction ws with
  | nil => rfl
  | cons w ws ih => simp only [wordBytes_cons, List.length_append, Vector.length_toList, ih, List.length_cons]; omega

/-- The word at byte `4 * i` of the bytes of `ws` is word `i`; outside the sequence both are zero (log 12). -/
theorem wordAt_wordBytes (ws : List Word4) (i : Nat) :
    wordAt (wordBytes ws) (4 * i) = ws.getD i (Vector.replicate 4 0) := by
  induction ws generalizing i with
  | nil => exact Vector.ext fun j hj => by simp
  | cons w ws ih =>
    rw [wordBytes_cons]
    cases i with
    | zero => exact Vector.ext fun j hj => by simp [List.getD, List.getElem?_append, hj]
    | succ i =>
      rw [List.getD_cons_succ, ← ih]
      refine Vector.ext fun j hj => ?_
      have hskip : 4 * (i + 1) + j - w.toList.length = 4 * i + j := by rw [Vector.length_toList]; omega
      rw [getElem_wordAt _ _ _ hj, getElem_wordAt _ _ _ hj, List.getD_append_right _ _ _ _ (by simp; omega), hskip]

/-- The bytes of a word read from a sequence are the four bytes there. -/
theorem toList_wordAt {s : List Byte} {a : Nat} (h : a + 4 ≤ s.length) : (wordAt s a).toList = slice s a 4 := by
  refine List.ext_getElem (by simp; omega) fun j hj hj' => ?_
  have hlt : a + j < s.length := by simp at hj; omega
  simp [wordAt, slice, hlt]

/-! ### The kinds of step -/

/-- What a step of section 4 with Rcon index `g` does to the last word. -/
def stepWord (g : Nat) : KeyStep → Word4 → Word4
  | .C, t => coreWord t g
  | .P, t => t
  | .S, t => subWord t

theorem keyStep_eq_appendWord (k g : Nat) (d : List Byte) (st : KeyStep) :
    keyStep k g d st = appendWord k d (stepWord g st (last4 d)) := by
  cases st <;> rfl

/-- The kind of step that makes word `j`, for a key of `nk` words (41_key_expansion.md R131). -/
def stepAt (nk j : Nat) : KeyStep :=
  if j % nk = 0 then .C else if nk = 8 ∧ j % 8 = 4 then .S else .P

/-- The kind of a step depends on its place in the group alone. -/
theorem stepAt_mul_add (nk g i : Nat) : stepAt nk (nk * g + i) = stepAt nk i := by
  unfold stepAt
  rw [Nat.mul_add_mod]
  by_cases h : nk = 8
  · rw [h, Nat.mul_add_mod]
  · simp only [h, false_and]

/-- The steps of one group, for a key of `nk` words. -/
def groupSteps (nk : Nat) : List KeyStep := (List.range nk).map (stepAt nk)

/-- A pass of R123's loop is the group of R124, R125 or R126 for its key size. -/
theorem keyGroup_eq_foldl {k : Nat} (hk : k = 16 ∨ k = 24 ∨ k = 32) (rc : Nat) (d : List Byte) :
    keyGroup k rc d = (groupSteps (k / 4)).foldl (keyStep k rc) d := by
  rcases hk with rfl | rfl | rfl <;> rfl

/-! ### The loop of the generic form is a fixed number of groups -/

theorem keyGroups_of_le {k T : Nat} {d : List Byte} (h : T ≤ d.length) (fuel rc : Nat) :
    keyGroups k T fuel rc d = d := by
  cases fuel with
  | zero => rfl
  | succ fuel => exact if_neg (Nat.not_lt.mpr h)

theorem keyGroups_of_lt {k T : Nat} {d : List Byte} (h : d.length < T) (fuel rc : Nat) :
    keyGroups k T (fuel + 1) rc d = keyGroups k T fuel (rc + 1) (keyGroup k rc d) :=
  if_pos h

/-- Where `n` groups are the first to reach `T` bytes, the loop makes `n` groups, with rising Rcon indices (R127, R128). -/
theorem keyGroups_eq_foldl {k T n : Nat} (hk : k = 16 ∨ k = 24 ∨ k = 32) {fuel rc : Nat} {d : List Byte} (hfuel : n ≤ fuel)
    (hlt : ∀ m < n, d.length + k * m < T) (hle : T ≤ d.length + k * n) :
    keyGroups k T fuel rc d = (List.range' rc n).foldl (fun d g => keyGroup k g d) d := by
  induction n generalizing fuel rc d with
  | zero => exact keyGroups_of_le hle fuel rc
  | succ n ih =>
    obtain ⟨fuel, rfl⟩ : ∃ f, fuel = f + 1 := ⟨fuel - 1, by omega⟩
    have hlen := length_keyGroup rc d hk
    rw [keyGroups_of_lt (hlt 0 n.succ_pos), List.range'_succ, List.foldl_cons]
    refine ih (by omega) (fun m hm => ?_) ?_
    · have := hlt (m + 1) (by omega)
      rw [hlen]; rw [Nat.mul_succ] at this; omega
    · rw [hlen]; rw [Nat.mul_succ] at hle; omega

/-- The generic form is the unrolled schedule of `n` groups, where `n` is the number of groups that reaches the target. -/
theorem keyExpand_eq_unrolled {key : List Byte} {n : Nat} (hk : key.length = 16 ∨ key.length = 24 ∨ key.length = 32)
    (hlt : key.length * n < xlen key.length) (hle : xlen key.length ≤ key.length * (n + 1)) :
    keyExpand key = unrolled (groupSteps (key.length / 4)) n (xlen key.length) key := by
  have hn : n ≤ xlen key.length := (Nat.le_mul_of_pos_left n (by omega)).trans hlt.le
  have hbefore : ∀ m < n, key.length + key.length * m < xlen key.length := fun m hm =>
    calc key.length + key.length * m = key.length * (m + 1) := by ring
      _ ≤ key.length * n := Nat.mul_le_mul_left _ hm
      _ < xlen key.length := hlt
  have hafter : xlen key.length ≤ key.length + key.length * n := by
    rw [Nat.mul_succ] at hle; omega
  simp only [keyExpand, unrolled]
  rw [keyGroups_eq_foldl hk hn hbefore hafter, List.range'_eq_map_range, List.foldl_map]
  simp only [keyGroup_eq_foldl hk, Nat.add_comm 1]

/-- Settles O42: ten, eight and seven groups reach 176, 208 and 240 bytes, and `groupSteps` computes to the steps that
R124, R125 and R126 list. -/
theorem keyExpandUnrolled : Obligations.KeyExpandUnrolled := by
  refine fun key => ⟨fun h => ?_, fun h => ?_, fun h => ?_⟩
  · have hx := keyExpand_eq_unrolled (n := 10) (.inl h) (by rw [h]; decide) (by rw [h]; decide)
    rwa [h] at hx
  · have hx := keyExpand_eq_unrolled (n := 8) (.inr (.inl h)) (by rw [h]; decide) (by rw [h]; decide)
    rwa [h] at hx
  · have hx := keyExpand_eq_unrolled (n := 7) (.inr (.inr h)) (by rw [h]; decide) (by rw [h]; decide)
    rwa [h] at hx

/-! ### The words of the recurrence (R131) -/

@[simp] theorem length_recurrenceWords (key : List Byte) (n : Nat) : (recurrenceWords key n).length = n := by
  induction n with
  | zero => rfl
  | succ n ih => simp [recurrenceWords, ih]

theorem recurrenceWord_of_lt {key : List Byte} {j : Nat} (h : j < key.length / 4) (ws : List Word4) :
    recurrenceWord key j ws = wordAt key (4 * j) :=
  if_pos h

theorem recurrenceWord_of_le {key : List Byte} {j : Nat} (h : key.length / 4 ≤ j) (ws : List Word4) :
    recurrenceWord key j ws = xorV (ws.getD (j - key.length / 4) (Vector.replicate 4 0))
      (stepWord (j / (key.length / 4)) (stepAt (key.length / 4) j) (ws.getD (j - 1) (Vector.replicate 4 0))) := by
  simp only [recurrenceWord, if_neg (Nat.not_lt.mpr h), stepAt]
  split_ifs <;> rfl

/-- The bytes of the first `n` words of the recurrence. -/
def recurrenceBytes (key : List Byte) (n : Nat) : List Byte := wordBytes (recurrenceWords key n)

@[simp] theorem length_recurrenceBytes (key : List Byte) (n : Nat) : (recurrenceBytes key n).length = 4 * n := by
  simp [recurrenceBytes]

theorem recurrenceBytes_succ (key : List Byte) (n : Nat) : recurrenceBytes key (n + 1) =
    recurrenceBytes key n ++ (recurrenceWord key n (recurrenceWords key n)).toList := by
  simp [recurrenceBytes, recurrenceWords]

theorem wordAt_recurrenceBytes (key : List Byte) (n i : Nat) : wordAt (recurrenceBytes key n) (4 * i) =
    (recurrenceWords key n).getD i (Vector.replicate 4 0) :=
  wordAt_wordBytes ..

/-- The recurrence only appends: its first `m` words are those of every longer run. -/
theorem slice_recurrenceBytes (key : List Byte) {m n : Nat} (h : m ≤ n) :
    slice (recurrenceBytes key n) 0 (4 * m) = recurrenceBytes key m := by
  induction n, h using Nat.le_induction with
  | base => simp [slice]
  | succ n hmn ih =>
    rw [slice, List.drop_zero] at ih ⊢
    rw [recurrenceBytes_succ, List.take_append_of_le_length (by simp; omega), ih]

/-- The words before word `Nk` are the Key's. -/
theorem recurrenceBytes_eq_slice_key (key : List Byte) {n : Nat} (h : n ≤ key.length / 4) :
    recurrenceBytes key n = slice key 0 (4 * n) := by
  induction n with
  | zero => simp [recurrenceBytes, recurrenceWords, slice]
  | succ n ih =>
    rw [recurrenceBytes_succ, ih (by omega), recurrenceWord_of_lt (by omega), toList_wordAt (by omega)]
    exact (List.take_add (l := key) (i := 4 * n) (j := 4)).symm

theorem recurrenceBytes_key {key : List Byte} {nk : Nat} (hk : key.length = 4 * nk) : recurrenceBytes key nk = key := by
  rw [recurrenceBytes_eq_slice_key key (by omega), ← hk]
  exact List.take_length

/-! ### The groups compute the recurrence -/

/-- The step R131 names for word `j`, with the group number as Rcon index, appends word `j` of the recurrence. -/
theorem keyStep_recurrenceBytes {key : List Byte} {nk j : Nat} (hk : key.length = 4 * nk) (hnk : 0 < nk) (hj : nk ≤ j) :
    keyStep key.length (j / nk) (recurrenceBytes key j) (stepAt nk j) = recurrenceBytes key (j + 1) := by
  have hdiv : key.length / 4 = nk := by omega
  have hlast : (recurrenceBytes key j).length - 4 = 4 * (j - 1) := by simp; omega
  have hearlier : (recurrenceBytes key j).length - key.length = 4 * (j - nk) := by simp; omega
  rw [keyStep_eq_appendWord, appendWord, last4, hlast, hearlier, wordAt_recurrenceBytes, wordAt_recurrenceBytes,
    recurrenceBytes_succ, recurrenceWord_of_le (by omega), hdiv, xorV_comm]

/-- The first `m` steps of group `g`, run on the words before the group, append the next `m` words of the recurrence. -/
theorem steps_recurrenceBytes {key : List Byte} {nk g m : Nat} (hk : key.length = 4 * nk) (hg : 0 < g) (hm : m ≤ nk) :
    ((List.range m).map (stepAt nk)).foldl (keyStep key.length g) (recurrenceBytes key (nk * g)) =
      recurrenceBytes key (nk * g + m) := by
  induction m with
  | zero => rfl
  | succ m ih =>
    have hgroup : (nk * g + m) / nk = g := by
      rw [Nat.mul_add_div (by omega), Nat.div_eq_of_lt (by omega), Nat.add_zero]
    have hstep := keyStep_recurrenceBytes hk (by omega) (le_add_right (Nat.le_mul_of_pos_right nk hg) : nk ≤ nk * g + m)
    rw [hgroup, stepAt_mul_add] at hstep
    rw [List.range_succ, List.map_append, List.foldl_append, ih (by omega)]
    exact hstep

/-- After `n` groups the sequence holds the first `Nk * (n + 1)` words of the recurrence. -/
theorem groups_recurrenceBytes {key : List Byte} {nk : Nat} (hk : key.length = 4 * nk) (n : Nat) :
    (List.range n).foldl (fun d g => (groupSteps nk).foldl (keyStep key.length (g + 1)) d) key =
      recurrenceBytes key (nk * (n + 1)) := by
  induction n with
  | zero => simpa using (recurrenceBytes_key hk).symm
  | succ n ih =>
    rw [List.range_succ, List.foldl_append, ih]
    exact steps_recurrenceBytes hk n.succ_pos le_rfl

/-- For every legal Key some number of groups is the first to reach the target length. -/
theorem exists_groupCount {k : Nat} (hk : k = 16 ∨ k = 24 ∨ k = 32) : ∃ n, k * n < xlen k ∧ xlen k ≤ k * (n + 1) := by
  rcases hk with rfl | rfl | rfl
  · exact ⟨10, by decide⟩
  · exact ⟨8, by decide⟩
  · exact ⟨7, by decide⟩

theorem keyExpand_eq_recurrenceBytes {key : List Byte} (hk : key.length = 16 ∨ key.length = 24 ∨ key.length = 32) :
    keyExpand key = recurrenceBytes key (xlen key.length / 4) := by
  obtain ⟨n, hlt, hle⟩ := exists_groupCount hk
  have hwords : key.length = 4 * (key.length / 4) := by omega
  have htarget : xlen key.length = 4 * (xlen key.length / 4) := by unfold xlen; omega
  have henough : xlen key.length / 4 ≤ key.length / 4 * (n + 1) := by
    have hbytes : key.length * (n + 1) = 4 * (key.length / 4 * (n + 1)) := by rw [← Nat.mul_assoc, ← hwords]
    omega
  calc keyExpand key
      = slice (recurrenceBytes key (key.length / 4 * (n + 1))) 0 (xlen key.length) := by
        rw [keyExpand_eq_unrolled hk hlt hle, unrolled, groups_recurrenceBytes hwords]
    _ = slice (recurrenceBytes key (key.length / 4 * (n + 1))) 0 (4 * (xlen key.length / 4)) := by rw [← htarget]
    _ = recurrenceBytes key (xlen key.length / 4) := slice_recurrenceBytes key henough

/-- Settles O43: every group appends the next `Nk` words of the recurrence, and the truncation keeps the first words. -/
theorem keyExpandWordRecurrence : Obligations.KeyExpandWordRecurrence :=
  fun _ hk => keyExpand_eq_recurrenceBytes hk

/-! ### The contract and the command -/

/-- The expansion of a legal Key has exactly the length R8 gives. -/
theorem length_keyExpand {key : List Byte} (hk : key.length = 16 ∨ key.length = 24 ∨ key.length = 32) :
    (keyExpand key).length = xlen key.length := by
  rw [keyExpand_eq_recurrenceBytes hk, length_recurrenceBytes]
  unfold xlen; omega

/-- Settles O41: the recurrence has the length of its words, and its first `Nk` words are the Key's. -/
theorem keyExpandContract : Obligations.KeyExpandContract := by
  refine fun key hk => ⟨length_keyExpand hk, ?_⟩
  have hwords : key.length = 4 * (key.length / 4) := by omega
  calc slice (keyExpand key) 0 key.length
      = slice (recurrenceBytes key (xlen key.length / 4)) 0 (4 * (key.length / 4)) := by
        rw [keyExpand_eq_recurrenceBytes hk, ← hwords]
    _ = recurrenceBytes key (key.length / 4) := slice_recurrenceBytes key (by unfold xlen; omega)
    _ = key := recurrenceBytes_key hwords

/-- Settles O18: with a legal KEYLEN the expansion fills XKEY up to the new XKLEN; any other is InvalidKeySize. -/
theorem keyexpandExpandsKey : Obligations.KeyexpandExpandsKey := by
  refine ⟨rfl, fun s => ?_⟩
  rw [← legalKeyLen_iff]
  rcases execKeyexpand_cases s with ⟨hbad, hraise⟩ | ⟨hok, hnext⟩
  · exact ⟨fun hok => absurd hok (by simp [hbad]), fun _ => ⟨_, hraise⟩⟩
  · obtain ⟨-, -, hslice⟩ := execKeyexpand_xkeyArg hok hnext
    have hkey := length_keyArg_of_legal hok
    have hcases := legalKeyLen_iff.mp hok
    have hlen : (keyExpand s.keyArg).length = xlen s.keylen.toNat := by
      rw [length_keyExpand (hkey ▸ hcases), hkey]
    have hfits : xlen s.keylen.toNat ≤ 240 := by unfold xlen; omega
    have hn : (BitVec.ofNat 8 (keyExpand s.keyArg).length).toNat = xlen s.keylen.toNat := by
      rw [hlen, BitVec.toNat_ofNat, Nat.mod_eq_of_lt (by omega)]
    refine ⟨fun _ => ⟨_, _, hnext, hn, ?_, ?_, fun j hj => ?_⟩, fun hbad => absurd hok hbad⟩
    · rw [hn]; unfold xlen; omega
    · exact hslice.trans (List.take_of_length_le (by rw [hn]; exact hlen.le))
    · exact execKeyexpand_xkey_tail hnext j.isLt (hn ▸ hj)

end Sys2Proof.Machine
end

section
/-! The block cipher core (42_block_cipher.md): a State read as a matrix, the round transformations undone one by one, the
two round sequences undone round by round, and the commands BLKENC and BLKDEC. -/

namespace Sys2Proof.Machine

/-! ### A State as a matrix (00_scope.md R16) -/

/-- A row or column number counts modulo 4. -/
theorem at4_congr (S : Block) {r r' c c' : Nat} (hr : r % 4 = r' % 4) (hc : c % 4 = c' % 4) :
    at4 S r c = at4 S r' c' := by
  simp only [at4, hr, hc]

theorem at4_ofMatrix (f : Nat → Nat → Byte) (r c : Nat) : at4 (ofMatrix f) r c = f (r % 4) (c % 4) := by
  have hrow : (r % 4 + 4 * (c % 4)) % 4 = r % 4 := by omega
  have hcol : (r % 4 + 4 * (c % 4)) / 4 = c % 4 := by omega
  simp only [at4, ofMatrix, Vector.getElem_ofFn, hrow, hcol]

theorem ofMatrix_at4 (S : Block) : ofMatrix (at4 S) = S := by
  refine Vector.ext fun j hj => ?_
  have hindex : j % 4 % 4 + 4 * (j / 4 % 4) = j := by omega
  simp only [ofMatrix, at4, Vector.getElem_ofFn, hindex]

/-- States with the same matrix entries are equal. -/
theorem eq_of_at4 {S T : Block} (h : ∀ r c : Fin 4, at4 S r c = at4 T r c) : S = T := by
  rw [← ofMatrix_at4 S, ← ofMatrix_at4 T]
  refine Vector.ext fun j hj => ?_
  simpa only [ofMatrix, Vector.getElem_ofFn] using h ⟨j % 4, by omega⟩ ⟨j / 4, by omega⟩

/-! ### ShiftRows (R145, R146) -/

theorem at4_shiftRows (S : Block) (r c : Nat) : at4 (shiftRows S) r c = at4 S r (c + r) :=
  (at4_ofMatrix ..).trans (at4_congr S (by omega) (by omega))

theorem at4_invShiftRows (S : Block) {r : Nat} (hr : r < 4) (c : Nat) :
    at4 (invShiftRows S) r c = at4 S r (c + (4 - r)) :=
  (at4_ofMatrix ..).trans (at4_congr S (by omega) (by omega))

@[simp] theorem invShiftRows_shiftRows (S : Block) : invShiftRows (shiftRows S) = S :=
  eq_of_at4 fun r c => by
    rw [at4_invShiftRows _ r.isLt, at4_shiftRows]
    exact at4_congr S rfl (by omega)

@[simp] theorem shiftRows_invShiftRows (S : Block) : shiftRows (invShiftRows S) = S :=
  eq_of_at4 fun r c => by
    rw [at4_shiftRows, at4_invShiftRows _ r.isLt]
    exact at4_congr S rfl (by omega)

/-- Settles O37: a row moves by its own number and moves back by the rest of 4. -/
theorem shiftRowsMovesRows : Obligations.ShiftRowsMovesRows := by
  refine fun S => ⟨fun r c => ?_, fun r c => ?_, invShiftRows_shiftRows S, shiftRows_invShiftRows S⟩
  · exact (at4_shiftRows S r c).trans (at4_congr S rfl (by omega))
  · refine (at4_invShiftRows S r.isLt c).trans (at4_congr S rfl ?_)
    rw [Fin.val_sub]
    omega

/-! ### SubBytes and AddRoundKey (R141, R143, R144) -/

@[simp] theorem invSubBytes_subBytes (S : Block) : invSubBytes (subBytes S) = S :=
  Vector.ext fun j hj => by simp only [invSubBytes, subBytes, Fin.getElem_fin, Vector.getElem_ofFn, invSbox_sbox]

@[simp] theorem subBytes_invSubBytes (S : Block) : subBytes (invSubBytes S) = S :=
  Vector.ext fun j hj => by simp only [invSubBytes, subBytes, Fin.getElem_fin, Vector.getElem_ofFn, sbox_invSbox]

@[simp] theorem addRoundKey_addRoundKey (S : Block) (X : List Byte) (i : Nat) :
    addRoundKey (addRoundKey S X i) X i = S :=
  xorV_cancel S _

/-- Settles O38: the tables undo each other byte by byte, and so does exclusive-or. -/
theorem subBytesAndRoundKeyUndone : Obligations.SubBytesAndRoundKeyUndone :=
  fun S X i => ⟨invSubBytes_subBytes S, subBytes_invSubBytes S, addRoundKey_addRoundKey S X i⟩

/-! ### The field's laws that MixColumns needs (40_gf_and_tables.md R100 to R102) -/

theorem gfmul_xor_left (a b c : Byte) : gfmul (a ^^^ b) c = gfmul a c ^^^ gfmul b c := by
  rw [gfmulIsPolynomialProduct, gfmulIsPolynomialProduct, gfmulIsPolynomialProduct]
  exact gfmulLoop_xor 8 0 0 a b c

theorem gfmul_xor_right (a b c : Byte) : gfmul a (b ^^^ c) = gfmul a b ^^^ gfmul a c := by
  rw [gfmul_comm, gfmul_xor_left, gfmul_comm b, gfmul_comm c]

@[simp] theorem gfmul_one_right (a : Byte) : gfmul a 1 = a := by
  rw [gfmul_comm, gfmul_one_left]

theorem gfmul_ne_zero {a b : Byte} (ha : a ≠ 0) (hb : b ≠ 0) : gfmul a b ≠ 0 := by
  rw [gfmul_of_ne_zero ha hb]
  exact expT_ne_zero ⟨_, Nat.mod_lt _ (by decide)⟩

theorem logT_gfmul {a b : Byte} (ha : a ≠ 0) (hb : b ≠ 0) : logT (gfmul a b) = (logT a + logT b) % 255 := by
  rw [gfmul_of_ne_zero ha hb]
  exact logT_expT ⟨_, Nat.mod_lt _ (by decide)⟩

/-- Operands other than 0 multiply by adding logarithms modulo 255, and addition is associative. -/
theorem gfmul_assoc (a b c : Byte) : gfmul (gfmul a b) c = gfmul a (gfmul b c) := by
  by_cases ha : a = 0
  · simp only [ha, gfmul_zero_left]
  by_cases hb : b = 0
  · simp only [hb, gfmul_zero_left, gfmul_zero_right]
  by_cases hc : c = 0
  · simp only [hc, gfmul_zero_right]
  rw [gfmul_of_ne_zero (gfmul_ne_zero ha hb) hc, gfmul_of_ne_zero ha (gfmul_ne_zero hb hc), logT_gfmul ha hb,
    logT_gfmul hb hc, Nat.mod_add_mod, Nat.add_mod_mod, Nat.add_assoc]

/-! ### MixColumns (R147, R148) -/

/-- The dot product of R147 of two sequences of four bytes. -/
def dot4 (a b : Fin 4 → Byte) : Byte :=
  gfmul (a 0) (b 0) ^^^ gfmul (a 1) (b 1) ^^^ gfmul (a 2) (b 2) ^^^ gfmul (a 3) (b 3)

/-- Byte `r` of a mixed column is the dot product of the column with row `r` of the matrix. -/
theorem at4_mix (M : Vector (Vector Byte 4) 4) (S : Block) (r c : Fin 4) :
    at4 (ofMatrix (mixByte M S)) r c = dot4 (fun k => at4 S k c) fun k => M[r][k] := by
  rw [at4_ofMatrix, Nat.mod_eq_of_lt r.isLt, Nat.mod_eq_of_lt c.isLt]
  simp only [mixByte, Nat.mod_eq_of_lt r.isLt]
  rfl

/-- Multiplying a column by `N` and then by the row `m` is multiplying it by the row `m` times `N`. -/
theorem dot4_dot4 (a m : Fin 4 → Byte) (N : Fin 4 → Fin 4 → Byte) :
    dot4 (fun k => dot4 a (N k)) m = dot4 a fun j => dot4 m fun k => N k j := by
  have hterm : ∀ j k, gfmul (gfmul (a j) (N k j)) (m k) = gfmul (a j) (gfmul (m k) (N k j)) := fun j k => by
    rw [gfmul_assoc, gfmul_comm (N k j)]
  simp only [dot4, gfmul_xor_left, gfmul_xor_right, hterm]
  ac_rfl

/-- The dot product with row `r` of the unit matrix picks entry `r`. -/
theorem dot4_unit (a : Fin 4 → Byte) (r : Fin 4) : dot4 a (fun j => if r = j then 1 else 0) = a r := by
  have hterm : ∀ j, gfmul (a j) (if r = j then 1 else 0) = if r = j then a j else 0 := fun j => by
    split
    · exact gfmul_one_right _
    · exact gfmul_zero_right _
  simp only [dot4, hterm]
  fin_cases r <;> simp

/-- INVMIX times MIX is the unit matrix in the field, and the product of matrices acts as they do one after the other. -/
@[simp] theorem invMixColumns_mixColumns (S : Block) : invMixColumns (mixColumns S) = S := by
  refine eq_of_at4 fun r c => ?_
  have hunit : ∀ j, dot4 (fun k => invMixMatrix[r][k]) (fun k => mixMatrix[k][j]) = if r = j then 1 else 0 :=
    inverseMixMatrix.1 r
  calc at4 (invMixColumns (mixColumns S)) r c
      = dot4 (fun k => at4 (mixColumns S) k c) (fun k => invMixMatrix[r][k]) := at4_mix ..
    _ = dot4 (fun k => dot4 (fun j => at4 S j c) fun j => mixMatrix[k][j]) (fun k => invMixMatrix[r][k]) := by
      simp only [mixColumns, at4_mix]
    _ = dot4 (fun j => at4 S j c) (fun j => dot4 (fun k => invMixMatrix[r][k]) fun k => mixMatrix[k][j]) := dot4_dot4 ..
    _ = dot4 (fun j => at4 S j c) (fun j => if r = j then 1 else 0) := by simp only [hunit]
    _ = at4 S r c := dot4_unit _ r

theorem finite_block : Finite Block :=
  Finite.of_injective (fun (S : Block) (r c : Fin 4) => at4 S r c) fun _ _ h => eq_of_at4 fun r c => congrFun₂ h r c

/-- MixColumns has a left inverse on a finite type, so that it reaches every State, and the inverse is two-sided. -/
@[simp] theorem mixColumns_invMixColumns (S : Block) : mixColumns (invMixColumns S) = S := by
  have hleft : Function.LeftInverse invMixColumns mixColumns := invMixColumns_mixColumns
  have hsurj : Function.Surjective mixColumns := (@Finite.injective_iff_surjective _ finite_block _).mp hleft.injective
  exact hleft.rightInverse_of_surjective hsurj S

/-- Settles O39: INVMIX is the inverse of MIX in the field. -/
theorem mixColumnsUndone : Obligations.MixColumnsUndone :=
  fun S => ⟨invMixColumns_mixColumns S, mixColumns_invMixColumns S⟩

/-! ### The round sequences (R149, R150) -/

/-- A round of Decrypt undoes the round of Encrypt with its number. -/
theorem decRound_encRound (X : List Byte) (i : Nat) (S : Block) : decRound X i (encRound X i S) = S := by
  by_cases h : i = rounds X <;> simp [decRound, encRound, h]

theorem encRound_decRound (X : List Byte) (i : Nat) (S : Block) : encRound X i (decRound X i S) = S := by
  by_cases h : i = rounds X <;> simp [decRound, encRound, h]

theorem decRounds_encRounds (B : Block) (X : List Byte) (n : Nat) : decRounds X n (encRounds B X n) = B := by
  induction n with
  | zero => exact addRoundKey_addRoundKey B X 0
  | succ n ih =>
    calc decRounds X n (decRound X (n + 1) (encRound X (n + 1) (encRounds B X n)))
        = decRounds X n (encRounds B X n) := by rw [decRound_encRound]
      _ = B := ih

theorem encRounds_decRounds (X : List Byte) (n : Nat) (S : Block) : encRounds (decRounds X n S) X n = S := by
  induction n generalizing S with
  | zero => exact addRoundKey_addRoundKey S X 0
  | succ n ih =>
    calc encRound X (n + 1) (encRounds (decRounds X n (decRound X (n + 1) S)) X n)
        = encRound X (n + 1) (decRound X (n + 1) S) := by rw [ih]
      _ = S := encRound_decRound ..

@[simp] theorem decrypt_encrypt (B : Block) (X : List Byte) : decrypt (encrypt B X) X = B :=
  decRounds_encRounds B X (rounds X)

@[simp] theorem encrypt_decrypt (B : Block) (X : List Byte) : encrypt (decrypt B X) X = B :=
  encRounds_decRounds X (rounds X) B

/-- Settles O40: the rounds are undone one by one, whatever the length of the ExpandedKey. -/
theorem decryptUndoesEncrypt : Obligations.DecryptUndoesEncrypt :=
  fun B X _ => ⟨decrypt_encrypt B X, encrypt_decrypt B X⟩

/-- Settles O45: the expansion and the ten rounds are evaluated. -/
theorem knownAnswerZeroKey : Obligations.KnownAnswerZeroKey := by
  unfold Obligations.KnownAnswerZeroKey
  decide +kernel

/-! ### BLKENC and BLKDEC (R152, R153) -/

section
variable {s : State} {e : Err}

theorem execBlkenc_of_error (h : blockError s = some e) : exec .blkenc s = s.raise e := by
  simp only [exec, execBlkenc, h]

theorem execBlkdec_of_error (h : blockError s = some e) : exec .blkdec s = s.raise e := by
  simp only [exec, execBlkdec, h]

theorem execBlkenc_of_ok (h : blockError s = none) :
    exec .blkenc s = .next { s with res := encrypt s.blk s.xkeyArg, status := 0 } := by
  simp only [exec, execBlkenc, h, succeed_eq]

theorem execBlkdec_of_ok (h : blockError s = none) :
    exec .blkdec s = .next { s with res := decrypt s.blk s.xkeyArg, status := 0 } := by
  simp only [exec, execBlkdec, h, succeed_eq]

theorem blockError_of_illegal_xklen (hx : ¬ (s.xklen.toNat = 176 ∨ s.xklen.toNat = 208 ∨ s.xklen.toNat = 240)) :
    blockError s = some .invalidKeySize :=
  if_pos (Bool.eq_false_iff.mpr (mt legalXkLen_iff.mp hx))

variable (hx : s.xklen.toNat = 176 ∨ s.xklen.toNat = 208 ∨ s.xklen.toNat = 240)
include hx

theorem blockError_of_blklen_ne (hb : s.blklen.toNat ≠ 16) : blockError s = some .invalidBlockSize := by
  simp [blockError, legalXkLen_iff.mpr hx, hb]

theorem blockError_eq_none (hb : s.blklen.toNat = 16) : blockError s = none := by
  simp [blockError, legalXkLen_iff.mpr hx, hb]

end

/-- Settles O19: with both tests passed the ciphertext goes to RES; a wrong XKLEN is named before a wrong BLKLEN. -/
theorem blkencEncryptsBlock : Obligations.BlkencEncryptsBlock :=
  ⟨rfl, fun _ => ⟨fun hx hb => execBlkenc_of_ok (blockError_eq_none hx hb),
    fun hx => ⟨_, execBlkenc_of_error (blockError_of_illegal_xklen hx)⟩,
    fun hx hb => ⟨_, execBlkenc_of_error (blockError_of_blklen_ne hx hb)⟩⟩⟩

/-- Settles O20: the tests are those of BLKENC, and the plaintext goes to RES. -/
theorem blkdecDecryptsBlock : Obligations.BlkdecDecryptsBlock :=
  ⟨rfl, fun _ => ⟨fun hx hb => execBlkdec_of_ok (blockError_eq_none hx hb),
    fun hx => ⟨_, execBlkdec_of_error (blockError_of_illegal_xklen hx)⟩,
    fun hx hb => ⟨_, execBlkdec_of_error (blockError_of_blklen_ne hx hb)⟩⟩⟩

/-- Where BLKENC is ready its tests name no error. -/
theorem blockError_eq_none_of_ready {s : State} (h : s.ready .blkenc = true) : blockError s = none := by
  obtain ⟨hx, hb⟩ : legalXkLen s.xklen.toNat = true ∧ s.blklen.toNat = 16 := by simpa [State.ready, tests] using h
  exact blockError_eq_none (legalXkLen_iff.mp hx) hb

/-- Settles O22: BLKENC changes neither XKEY nor the registers tested, so that BLKDEC decrypts under the same key. -/
theorem blkdecUndoesBlkenc : Obligations.BlkdecUndoesBlkenc := by
  intro s t u v hready ht hu hv
  have hs : blockError s = none := blockError_eq_none_of_ready hready
  cases (execBlkenc_of_ok hs).symm.trans ht
  have hu' : blockError u = none := by
    rw [hu]
    exact (blockError_congr rfl rfl).trans hs
  cases (execBlkdec_of_ok hu').symm.trans hv
  subst hu
  exact ⟨decrypt_encrypt s.blk s.xkeyArg, rfl⟩

end Sys2Proof.Machine
end

section
/-! The counter (43_counter.md): its value in base 256 (R174), the carry of R171 along the bytes, the command CTRNEXT (R173),
and the counters CTRCRYPT uses (R175). -/

namespace Sys2Proof.Machine

/-! ### The value of a counter in base 256 (R174) -/

/-- The bytes of a counter as base-256 digits, least significant first. -/
def counterDigits (C : Block) : List Nat := C.toList.reverse.map BitVec.toNat

@[simp] theorem length_counterDigits (C : Block) : (counterDigits C).length = 16 := by simp [counterDigits]

theorem counterDigits_lt (C : Block) : ∀ d ∈ counterDigits C, d < 256 := by
  simp only [counterDigits, List.mem_map]
  rintro _ ⟨b, -, rfl⟩
  exact b.isLt

/-- The byte of index `j` is the digit of weight `256 ^ (15 - j)`. -/
theorem getElem_counterDigits (C : Block) {i : Nat} (h : i < (counterDigits C).length) :
    (counterDigits C)[i] = (C[15 - i]'(by omega)).toNat := by
  simp [counterDigits]

theorem counterDigits_set (C : Block) {j : Nat} (hj : j < 16) (b : Byte) :
    counterDigits (C.set j b) = (counterDigits C).set (15 - j) b.toNat := by
  refine List.ext_getElem (by simp) fun i hi _ => ?_
  rw [length_counterDigits] at hi
  have hplace : j = 15 - i ↔ 15 - j = i := by omega
  simp only [List.getElem_set, getElem_counterDigits, Vector.getElem_set, hplace, apply_ite BitVec.toNat]

theorem counterDigits_injective : Function.Injective counterDigits := fun C D h => by
  have hrev : C.toList.reverse = D.toList.reverse := List.map_injective_iff.mpr BitVec.toNat_injective h
  exact Vector.toList_inj.mp (List.reverse_injective hrev)

theorem ctrVal_eq_ofDigits (C : Block) : ctrVal C = Nat.ofDigits 256 (counterDigits C) := by
  rw [ctrVal, counterDigits, Nat.ofDigits_eq_foldr, List.foldr_map, List.foldr_reverse]
  simp only [Nat.cast_id, Nat.add_comm]

theorem ctrVal_lt (C : Block) : ctrVal C < 2 ^ 128 := by
  have h := Nat.ofDigits_lt_base_pow_length (by decide) (counterDigits_lt C)
  rw [length_counterDigits] at h
  rw [ctrVal_eq_ofDigits]
  omega

/-- A counter is the 16 bytes of its value. -/
theorem ctrVal_injective : Function.Injective ctrVal := fun C D h => by
  rw [ctrVal_eq_ofDigits, ctrVal_eq_ofDigits] at h
  exact counterDigits_injective
    (Nat.ofDigits_inj_of_len_eq (by decide) (by simp) (counterDigits_lt C) (counterDigits_lt D) h)

/-- Replacing one digit of a number changes it by the difference of the digits, times the weight of their place. -/
theorem ofDigits_set (b d : Nat) : ∀ {L : List Nat} {i : Nat} (h : i < L.length),
    Nat.ofDigits b (L.set i d) + b ^ i * L[i] = Nat.ofDigits b L + b ^ i * d
  | x :: L, 0, _ => by
    simp only [List.set_cons_zero, List.getElem_cons_zero, Nat.ofDigits_cons]
    ring
  | x :: L, i + 1, h => by
    have ih := ofDigits_set b d (Nat.lt_of_succ_lt_succ h)
    simp only [List.set_cons_succ, List.getElem_cons_succ, Nat.ofDigits_cons, pow_succ]
    linear_combination b * ih

theorem ctrVal_set (C : Block) {j : Nat} (hj : j < 16) (b : Byte) :
    ctrVal (C.set j b) + 256 ^ (15 - j) * C[j].toNat = ctrVal C + 256 ^ (15 - j) * b.toNat := by
  have h := ofDigits_set 256 b.toNat (L := counterDigits C) (i := 15 - j) (by simp; omega)
  simp only [getElem_counterDigits, show 15 - (15 - j) = j by omega] at h
  rw [ctrVal_eq_ofDigits, ctrVal_eq_ofDigits, counterDigits_set C hj]
  exact h

/-! ### Inc128 (R171) -/

/-- A carry into byte `j - 1` adds one at its place, `256 ^ (16 - j)`; a carry out of byte 0 is lost modulo 2^128. -/
theorem ctrVal_incBelow (R : Block) (j : Nat) (h : j ≤ 16) :
    ctrVal (incBelow R j h) ≡ ctrVal R + 256 ^ (16 - j) [MOD 2 ^ 128] := by
  induction j generalizing R with
  | zero => simp [incBelow, Nat.ModEq]
  | succ j ih =>
    rw [incBelow, show 16 - (j + 1) = 15 - j by omega]
    split
    next hff =>
      have hset : ctrVal (R.set j 0x00) + 256 ^ (15 - j) * 255 = ctrVal R := by
        simpa [hff] using ctrVal_set R (j := j) (by omega) 0x00
      have hweight : 256 ^ (16 - j) = 256 * 256 ^ (15 - j) := by
        rw [← pow_succ', show 15 - j + 1 = 16 - j by omega]
      rw [show ctrVal R + 256 ^ (15 - j) = ctrVal (R.set j 0x00) + 256 ^ (16 - j) by omega]
      exact ih (R.set j 0x00) (by omega)
    next hne =>
      have hset := ctrVal_set R (j := j) (by omega) (R[j] + 1)
      have hadd : (R[j] + 1).toNat = R[j].toNat + 1 := by bv_omega
      rw [hadd, Nat.mul_succ] at hset
      rw [show ctrVal (R.set j (R[j] + 1)) = ctrVal R + 256 ^ (15 - j) by omega]

theorem ctrVal_inc128 (C : Block) : ctrVal (inc128 C) = (ctrVal C + 1) % 2 ^ 128 := by
  rw [← Nat.mod_eq_of_lt (ctrVal_lt (inc128 C))]
  exact ctrVal_incBelow C 16 (Nat.le_refl 16)

/-- Settles O44, by the carry lemma at the last byte. -/
theorem incrementAddsOne : Obligations.IncrementAddsOne := ctrVal_inc128

/-- Inc128 applied `n` times adds `n` (R175). -/
theorem ctrVal_iterate_inc128 (C : Block) (n : Nat) : ctrVal (inc128^[n] C) = (ctrVal C + n) % 2 ^ 128 := by
  induction n with
  | zero => exact (Nat.mod_eq_of_lt (ctrVal_lt C)).symm
  | succ n ih => rw [Function.iterate_succ_apply', ctrVal_inc128, ih, Nat.mod_add_mod, Nat.add_assoc]

/-! ### CTRNEXT and CTRCRYPT (R173, R175) -/

/-- Settles O21: the counter left is Inc128 of the old one. -/
theorem ctrnextReturnsThenIncrements : Obligations.CtrnextReturnsThenIncrements :=
  ⟨rfl, fun s => ⟨inc128 s.ctr, execCtrnext_eq s, ctrVal_inc128 s.ctr⟩⟩

/-- Where CTRCRYPT is ready its tests name no error. -/
theorem modeError_eq_none_of_ready_ctrcrypt {s : State} (h : s.ready .ctrcrypt = true) : modeError false s = none := by
  obtain ⟨hk, hd⟩ : legalKeyLen s.keylen.toNat = true ∧ s.dlen.toNat ≤ s.maxLen := by simpa [State.ready, tests] using h
  simp [modeError, hk, hd]

/-- Settles O27: a counter with the value of R175 is CTR incremented as often as CTRCRYPT's loop did. -/
theorem ctrcryptCounterOffset : Obligations.CtrcryptCounterOffset := by
  intro s t hready ht
  obtain ⟨d, _, hexec, rfl, hbyte⟩ := execCtrcrypt_next (modeError_eq_none_of_ready_ctrcrypt hready)
  cases hexec.symm.trans ht
  refine ⟨ctrVal_iterate_inc128 s.ctr _, fun j C hj hC => ?_⟩
  have hCtr : C = inc128^[j / 16] s.ctr := ctrVal_injective (hC.trans (ctrVal_iterate_inc128 s.ctr _).symm)
  rw [hbyte, if_pos hj, hCtr]
  simp [keystream, modeKey, List.getD, Nat.mod_lt]

end Sys2Proof.Machine
end

section
/-! The mode commands CBCENC, CBCDEC and CTRCRYPT (44_modes.md): their tests (R181), the padding rule (R183), what each
writes (R182, R185, R188), and how they undo one another (R187, R190). -/

namespace Sys2Proof.Machine

/-! ### The tests (R181; 60_exceptions.md R214) -/

theorem firstError_eq_none_iff (ts : List (Bool × Err)) : firstError ts = none ↔ (ts.all fun t => !t.1) = true := by
  induction ts with
  | nil => simp [firstError]
  | cons t ts ih =>
    obtain ⟨fails, e⟩ := t
    cases fails <;> simp [firstError, ih]

/-- The tests of a mode command pass exactly when its key and, for CBC, its IV have legal lengths and the input fits DIN. -/
theorem modeError_eq_none_iff {usesIv : Bool} {s : State} : modeError usesIv s = none ↔
    legalKeyLen s.keylen.toNat = true ∧ ¬ (usesIv = true ∧ s.ivlen.toNat ≠ 16) ∧ s.dlen.toNat ≤ s.maxLen := by
  refine ⟨fun h => ?_, fun ⟨hk, hiv, hd⟩ => ?_⟩
  · rcases modeError_cases usesIv s with ⟨-, he⟩ | ⟨-, -, he⟩ | ⟨-, -, -, he⟩ | ⟨hk, hiv, hd, -⟩
    · cases he.symm.trans h
    · cases he.symm.trans h
    · cases he.symm.trans h
    · exact ⟨hk, hiv, hd⟩
  · simp only [modeError, hk, if_neg hiv, if_neg (Nat.not_lt.mpr hd), Bool.true_eq_false, if_false]

section
variable {i : Instr} (hi : i = .cbcenc ∨ i = .cbcdec ∨ i = .ctrcrypt) {s : State}
include hi

/-- The tests a mode command makes are those R214 lists for it, in their order. -/
theorem modeError_eq_firstError : modeError (i ≠ .ctrcrypt) s = firstError (tests s i) := by
  rcases hi with rfl | rfl | rfl <;> simp [modeError, tests, firstError]

theorem modeError_eq_none_of_ready (h : s.ready i = true) : modeError (i ≠ .ctrcrypt) s = none :=
  (modeError_eq_firstError hi).trans ((firstError_eq_none_iff (tests s i)).mpr h)

theorem exec_of_firstError {e : Err} (h : firstError (tests s i) = some e) :
    ∃ f, exec i s = .next { s with status := e.code, failures := f } :=
  ⟨_, exec_eq_raise_of_modeError hi ((modeError_eq_firstError hi).trans h)⟩

end

/-! ### The padding rule (R183) and the empty input (R184 (a), R186 (a), R189 (a)) -/

theorem getElem_cbcPad (chunk : List Byte) (j : Nat) (h : j < 16) :
    (cbcPad chunk)[j] = chunk.getD j (BitVec.ofNat 8 (16 - chunk.length)) :=
  getElem_fillBlock _ chunk j h

/-- Settles O24: below `L` a byte of the padded chunk is that of the chunk, from there on it is the fill byte. -/
theorem paddingRule : Obligations.PaddingRule := by
  intro chunk _ hle
  refine List.ext_getElem (by simp [hle]) fun j hj _ => ?_
  simp only [Vector.getElem_toList, getElem_cbcPad]
  by_cases hc : j < chunk.length
  · rw [List.getElem_append_left hc, List.getD_eq_getElem _ _ hc]
  · rw [List.getElem_append_right (Nat.not_lt.mp hc), List.getElem_replicate,
      List.getD_eq_default _ _ (Nat.not_lt.mp hc)]

@[simp] theorem chunks_zero : chunks 0 = 0 := rfl

/-- Settles O30: an empty input has no chunk, so that the loop of each mode command leaves the state alone. -/
theorem emptyInputGivesEmptyOutput : Obligations.EmptyInputGivesEmptyOutput := by
  intro i s hi hd hready
  have hpass := modeError_eq_none_of_ready hi hready
  rcases hi with rfl | rfl | rfl
  · simp [exec, execCbcenc, show modeError true s = none from hpass, hd, succeed_eq]
  · simp [exec, execCbcdec, show modeError true s = none from hpass, hd, succeed_eq]
  · simp [exec, execCtrcrypt, show modeError false s = none from hpass, hd, succeed_eq]

/-! ### CBCENC (R182) -/

theorem getD_toList {n j : Nat} (v : Vector Byte n) (h : j < n) : v.toList.getD j 0 = v[j] := by
  simp [List.getD, h]

@[simp] theorem getElem_doutBlock (s : State) (i j : Nat) (h : j < 16) : (s.doutBlock i)[j] = s.doutByte (16 * i + j) := by
  simp [State.doutBlock]

/-- The ciphertext blocks CBCENC writes, `cbcCipher s (i + 1)` to block `i` of DOUT, from the IV on. -/
def cbcCipher (s : State) : Nat → Block := cbcBlocks (modeKey s) (fun i => cbcPad (s.chunk i)) s.iv

theorem cbcCipher_succ (s : State) (i : Nat) :
    cbcCipher s (i + 1) = encrypt (xorV (cbcPad (s.chunk i)) (cbcCipher s i)) (modeKey s) := rfl

section
variable {s t : State} (hpass : modeError true s = none) (ht : execCbcenc s = .next t)
include hpass ht

theorem execCbcenc_frame : t = { s with dout := t.dout, olen := t.olen, status := 0 } := by
  obtain ⟨d, _, hexec, rfl, -⟩ := execCbcenc_next hpass
  cases hexec.symm.trans ht
  rfl

/-- The length of the output fits OLEN, since it fits DOUT. -/
theorem execCbcenc_olen : t.olen.toNat = 16 * chunks s.dlen.toNat := by
  obtain ⟨d, _, hexec, rfl, -⟩ := execCbcenc_next hpass
  cases hexec.symm.trans ht
  have hfit := chunks_fit (dlen_le_of_modeError hpass)
  obtain ⟨-, -, hmax⟩ := maxLen_legal s
  exact Nat.mod_eq_of_lt (by omega)

theorem execCbcenc_doutBlock {i : Nat} (hi : i < chunks s.dlen.toNat) : t.doutBlock i = cbcCipher s (i + 1) := by
  obtain ⟨d, _, hexec, -, hbyte⟩ := execCbcenc_next hpass
  cases hexec.symm.trans ht
  refine Vector.ext fun j hj => ?_
  have hdiv : (16 * i + j) / 16 = i := by omega
  have hmod : (16 * i + j) % 16 = j := by omega
  simp only [getElem_doutBlock, hbyte, if_pos (show 16 * i + j < 16 * chunks s.dlen.toNat by omega), hdiv, hmod]
  rfl

/-- Before chunk `i` the chaining value is the ciphertext block before it, or the IV. -/
theorem cbcCipher_eq_prev {i : Nat} (hi : i ≤ chunks s.dlen.toNat) :
    cbcCipher s i = if i = 0 then s.iv else t.doutBlock (i - 1) := by
  cases i with
  | zero => rfl
  | succ i => exact (execCbcenc_doutBlock hpass ht hi).symm

end

/-- Settles O23: the blocks of DOUT are the ciphertext blocks, each made of the one before. -/
theorem cbcencChainsBlocks : Obligations.CbcencChainsBlocks := by
  refine ⟨rfl, fun s => ⟨fun hready => ?_, fun e => exec_of_firstError (.inl rfl)⟩⟩
  have hpass : modeError true s = none := modeError_eq_none_of_ready (i := .cbcenc) (.inl rfl) hready
  obtain ⟨_, t, ht, -, -⟩ := execCbcenc_next hpass
  have holen := execCbcenc_olen hpass ht
  refine ⟨t.dout, t.olen, t, execCbcenc_frame hpass ht, ht, holen, fun i hi => ?_, fun j hj => ?_⟩
  · have hi : i < chunks s.dlen.toNat := hi
    rw [execCbcenc_doutBlock hpass ht hi, cbcCipher_succ, cbcCipher_eq_prev hpass ht hi.le]
    rfl
  · exact execCbcenc_dout_tail ht (holen ▸ hj)

/-! ### CBCDEC (R185) -/

theorem cbcPrev_eq_ite (s : State) (iv : Block) (i : Nat) :
    cbcPrev s iv i = if i = 0 then iv else zpad16 (s.chunk (i - 1)) := by
  cases i <;> rfl

/-- Settles O25: the byte read is the one of the plaintext block of its chunk. -/
theorem cbcdecChainsBlocks : Obligations.CbcdecChainsBlocks := by
  refine ⟨rfl, fun s => ⟨fun hready => ?_, fun e => exec_of_firstError (.inr (.inl rfl))⟩⟩
  have hpass : modeError true s = none := modeError_eq_none_of_ready (i := .cbcdec) (.inr (.inl rfl)) hready
  obtain ⟨d, t, ht, hframe, hbyte⟩ := execCbcdec_next hpass
  refine ⟨d, t, hframe, ht, fun j hj => ?_, fun j hj => ?_⟩
  · rw [hbyte, if_pos hj, ← cbcPrev_eq_ite, getD_toList _ (Nat.mod_lt j (by decide))]
    rfl
  · rw [hbyte, if_neg (Nat.not_lt.mpr hj)]

/-! ### CBCDEC after CBCENC (R187) -/

/-- Deciphering a CBC ciphertext block gives the block it was made of. -/
theorem decrypt_cbcCipher (s : State) (i : Nat) :
    xorV (decrypt (cbcCipher s (i + 1)) (modeKey s)) (cbcCipher s i) = cbcPad (s.chunk i) := by
  rw [cbcCipher_succ, decrypt_encrypt, xorV_cancel]

/-- A padded chunk, byte by byte: the input below DLEN, then the number of missing bytes. -/
theorem getElem_cbcPad_chunk (s : State) {j : Nat} (hj : j < 16 * chunks s.dlen.toNat) :
    (cbcPad (s.chunk (j / 16)))[j % 16] =
      if j < s.dlen.toNat then s.dinByte j else BitVec.ofNat 8 (16 - s.dlen.toNat % 16) := by
  rw [getElem_cbcPad, length_chunk]
  split
  next hlt =>
    rw [getD_chunk s _ _ (mod_lt_chunkLen hlt), Nat.div_add_mod]
  next hge =>
    unfold chunks at hj
    have hlen : chunkLen s.dlen.toNat (j / 16) = s.dlen.toNat % 16 := by
      unfold chunkLen
      omega
    have hout : (s.chunk (j / 16)).length ≤ j % 16 := by
      rw [length_chunk, hlen]
      omega
    rw [List.getD_eq_default _ _ hout, hlen]

section
variable {s t u : State} (hpass : modeError true s = none) (ht : execCbcenc s = .next t) (hdlen : u.dlen = t.olen)
  (hin : ∀ j, j < t.olen.toNat → u.dinByte j = t.doutByte j)
include hpass ht hdlen hin

/-- The chunks of CBCENC's output, loaded as input, are its ciphertext blocks. -/
theorem zpad16_chunk_of_cbcenc {i : Nat} (hi : i < chunks s.dlen.toNat) : zpad16 (u.chunk i) = cbcCipher s (i + 1) := by
  have holen := execCbcenc_olen hpass ht
  rw [← execCbcenc_doutBlock hpass ht hi]
  refine Vector.ext fun j hj => ?_
  have hfull : j < chunkLen u.dlen.toNat i := by
    rw [hdlen, holen]
    unfold chunkLen
    omega
  rw [getElem_zpad16, getD_chunk u i 0 hfull, getElem_doutBlock]
  exact hin (16 * i + j) (by omega)

/-- CBCDEC of CBCENC's output, with the same key and IV, finds the padded chunks. -/
theorem cbcPlain_of_cbcenc {i : Nat} (hi : i < chunks s.dlen.toNat) : cbcPlain (modeKey s) u s.iv i = cbcPad (s.chunk i) := by
  have hprev : cbcPrev u s.iv i = cbcCipher s i := by
    cases i with
    | zero => rfl
    | succ i => exact zpad16_chunk_of_cbcenc hpass ht hdlen hin (Nat.lt_of_succ_lt hi)
  rw [cbcPlain, zpad16_chunk_of_cbcenc hpass ht hdlen hin hi, hprev, decrypt_cbcCipher]

end

/-- Settles O28: the output fits DIN, so that CBCDEC succeeds, and its plaintext blocks are the padded chunks. -/
theorem cbcRoundTripKeepsPadding : Obligations.CbcRoundTripKeepsPadding := by
  intro s t u v hready ht hk hkey hivlen hiv hmax hdlen hin hv
  have hs : modeError true s = none := modeError_eq_none_of_ready (i := .cbcenc) (.inl rfl) hready
  have holen := execCbcenc_olen hs ht
  have hu : modeError true u = none := by
    obtain ⟨hlegal, hiv16, hfit⟩ := modeError_eq_none_iff.mp hs
    rw [modeError_eq_none_iff, hk, hivlen, hdlen, hmax, holen]
    exact ⟨hlegal, hiv16, chunks_fit hfit⟩
  have hX : modeKey u = modeKey s := congrArg keyExpand hkey
  obtain ⟨d, _, hexec, hframe, hbyte⟩ := execCbcdec_next hu
  cases hexec.symm.trans hv
  have hvolen : v.olen = t.olen := by rw [hframe, ← hdlen]
  have hplain : ∀ j, j < 16 * chunks s.dlen.toNat →
      v.doutByte j = if j < s.dlen.toNat then s.dinByte j else BitVec.ofNat 8 (16 - s.dlen.toNat % 16) := fun j hj => by
    rw [hbyte, if_pos (by rwa [hdlen, holen]), hX, hiv, ← getElem_cbcPad_chunk s hj]
    simp only [cbcPlain_of_cbcenc hs ht hdlen hin (show j / 16 < chunks s.dlen.toNat by omega)]
  refine ⟨by rw [hframe], hvolen, fun j hj => ?_, fun j hge hlt => ?_, fun haligned => ?_⟩
  · rw [hplain j (by unfold chunks; omega), if_pos hj]
  · rw [hplain j (by rwa [hvolen, holen] at hlt), if_neg (Nat.not_lt.mpr hge)]
  · rw [hvolen]
    refine BitVec.eq_of_toNat_eq ?_
    rw [holen]
    unfold chunks
    omega

/-! ### CTRCRYPT (R188, R190) -/

/-- Settles O26: each byte is xored with its place in the keystream block of its chunk. -/
theorem ctrcryptXorsKeystream : Obligations.CtrcryptXorsKeystream := by
  refine ⟨rfl, fun s => ⟨fun hready => ?_, fun e => exec_of_firstError (.inr (.inr rfl))⟩⟩
  obtain ⟨d, t, ht, hframe, hbyte⟩ := execCtrcrypt_next (modeError_eq_none_of_ready_ctrcrypt hready)
  refine ⟨d, t, hframe, ht, fun j hj => ?_, fun j hj => ?_⟩
  · rw [hbyte, if_pos hj, getD_toList _ (Nat.mod_lt j (by decide))]
    rfl
  · rw [hbyte, if_neg (Nat.not_lt.mpr hj)]

/-- Settles O29: both runs xor with the same keystream, which cancels. -/
theorem ctrcryptSelfInverse : Obligations.CtrcryptSelfInverse := by
  intro s t u v hready ht hk hkey hctr hmax hdlen hin hv
  have hs := modeError_eq_none_of_ready_ctrcrypt hready
  obtain ⟨_, _, hexec, htframe, htbyte⟩ := execCtrcrypt_next hs
  cases hexec.symm.trans ht
  have holen : t.olen = s.dlen := by rw [htframe]
  have hd : u.dlen = s.dlen := hdlen.trans holen
  have hu : modeError false u = none := (modeError_congr hk hd hmax (fun h => absurd h (by decide))).trans hs
  have hX : modeKey u = modeKey s := congrArg keyExpand hkey
  obtain ⟨_, _, hexec', hvframe, hvbyte⟩ := execCtrcrypt_next hu
  cases hexec'.symm.trans hv
  refine ⟨by rw [hvframe], by rw [hvframe]; exact hd, fun j hj => ?_, by rw [hvframe, htframe, hd, hctr]⟩
  rw [hvbyte, hd, if_pos hj, hin j (holen ▸ hj), htbyte, if_pos hj, hX, hctr, BitVec.xor_assoc, BitVec.xor_self,
    BitVec.xor_zero]

end Sys2Proof.Machine
end

section
/-! Password text (45_password_text.md): the host's checks (R202), the key material (R203, R205), and DECRYPT_PWTEXT (R207)
as its CTRCRYPT issued in the state that the derivation and the loading leave. -/

namespace Sys2Proof.Machine

/-! ### The host's own checks (R202) -/

/-- Settles O54: each check is answered before any host action, in the order of R207's lines. -/
theorem passwordTextChecks : Obligations.PasswordTextChecks := by
  refine fun s payload pw ks => ⟨rfl, fun hks => ?_, fun hks hshort => ?_⟩
  · have hbad : legalKeyLen ks = false := Bool.eq_false_iff.mpr (mt legalKeyLen_iff.mp hks)
    simp only [decryptPwText, hbad, if_true]
  · have hok : legalKeyLen ks = true := legalKeyLen_iff.mpr hks
    simp only [decryptPwText, hok, Bool.true_eq_false, if_false, if_pos hshort]

/-! ### The key material (R203, R205) -/

@[simp] theorem length_rawKey (pw : List Byte) (ks : Nat) : (rawKey pw ks).length = ks := by
  rw [rawKey, List.length_append, List.length_take, List.length_replicate]
  omega

/-- Settles O53: below the password's length a byte is the password's, from there on it is padding. -/
theorem rawKeyTruncatesAndPads : Obligations.RawKeyTruncatesAndPads := by
  refine fun pw ks => ⟨length_rawKey pw ks, fun j hj => ?_⟩
  by_cases hpw : j < pw.length
  · rw [if_pos hpw, rawKey, List.getD_append _ _ _ _ (by rw [List.length_take]; omega)]
    simp [List.getD, hj]
  · have hcut : (pw.take ks).length = min ks pw.length := List.length_take
    rw [if_neg hpw, rawKey, List.getD_append_right _ _ _ _ (by omega), List.getD_replicate _ (by omega)]

/-- The tiles are 16 bytes each. -/
@[simp] theorem length_effectiveKey (pw : List Byte) (ks : Nat) : (effectiveKey pw ks).length = ks / 16 * 16 := by
  simp [effectiveKey, tile]

/-- Settles O57: `floor(ks / 16)` tiles of 16 bytes. -/
theorem effectiveKeyLength : Obligations.EffectiveKeyLength := by
  intro pw ks hks
  rw [length_effectiveKey]
  rcases hks with rfl | rfl | rfl <;> rfl

/-! ### The payload (R202, R204) -/

@[simp] theorem length_cipherText (payload : List Byte) : (cipherText payload).length = payload.length - 8 := by
  simp [cipherText]

theorem getD_cipherText {payload : List Byte} {j : Nat} (h : j < payload.length - 8) :
    (cipherText payload).getD j 0 = payload.getD (8 + j) 0 := getD_slice payload h

theorem length_counterStart {payload : List Byte} (h : 8 ≤ payload.length) : (counterStart payload).length = 16 := by
  simp [counterStart, nonce, h]

/-! ### Registers loaded as a whole -/

/-- Storing 16 bytes in a block register replaces its value. -/
theorem overwrite_eq_zpad16 (B : Block) {bs : List Byte} (h : bs.length = 16) : overwrite B 0 bs = zpad16 bs := by
  ext j hj
  rw [getElem_overwrite, if_pos (by omega), getElem_zpad16, Nat.sub_zero]

theorem performAll_writeLength_of_lt {it r : Item} (hr : it.lengthReg = some r)
    (hreg : r = .keylen ∨ r = .xklen ∨ r = .blklen ∨ r = .ivlen ∨ r = .dlen) {n : Nat}
    (hn : n < if r = .dlen then 2 ^ 32 else 2 ^ 8) (s : State) :
    performAll (writeLength it n) s = .next (s.withLength r n) := by
  simp only [writeLength, hr, performAll, perform, hostWriteReg_lengthReg hreg hn]

/-- `s` with `bs` at the start of KEY and its length in KEYLEN. -/
def State.withKey (s : State) (bs : List Byte) : State :=
  { s with key := overwrite s.key 0 bs, keylen := BitVec.ofNat 8 bs.length }

/-- `s` with the 16 bytes `bs` in BLK. -/
def State.withBlk (s : State) (bs : List Byte) : State := { s with blk := zpad16 bs, blklen := 16 }

/-- `s` with the bytes of `ct` that DIN has room for at its start, and the whole length in DLEN (log 14). -/
def State.withData (s : State) (ct : List Byte) : State :=
  { s with din := s.din.writeSeq 0 (ct.take s.maxLen), dlen := BitVec.ofNat 32 ct.length }

section
variable {bs : List Byte} (s : State)

theorem performAll_load_key (h : bs.length ≤ 32) :
    performAll (HostLine.load .key bs).expand s = .next (s.withKey bs) := by
  simp only [HostLine.expand, performAll_append, performAll_writeBytes_key bs s 0 (by omega)]
  exact performAll_writeLength_of_lt rfl (.inl rfl) (Nat.lt_of_le_of_lt h (by decide)) _

theorem performAll_load_blk (h : bs.length = 16) :
    performAll (HostLine.load .blk bs).expand s = .next (s.withBlk bs) := by
  simp only [HostLine.expand, performAll_append, performAll_writeBytes_blk bs s 0 (by omega), overwrite_eq_zpad16 _ h, h]
  exact performAll_writeLength_of_lt rfl (.inr (.inr (.inl rfl))) (by decide) _

theorem performAll_load_ctr (h : bs.length = 16) :
    performAll (HostLine.load .ctr bs).expand s = .next { s with ctr := zpad16 bs } := by
  simp only [HostLine.expand, performAll_append, performAll_writeBytes_ctr bs s 0 (by omega), overwrite_eq_zpad16 _ h]
  rfl

theorem performAll_loadData (h : bs.length < 2 ^ 32) : performAll (loadData s.maxLen bs) s = .next (s.withData bs) := by
  have hfit : 0 + (bs.take s.maxLen).length ≤ s.maxLen := by rw [List.length_take]; omega
  simp only [loadData, performAll_append, performAll_writeBytes_din _ s 0 hfit]
  exact performAll_writeLength_of_lt rfl (.inr (.inr (.inr (.inr rfl)))) h _

theorem withKey_keylen (h : bs.length ≤ 32) : (s.withKey bs).keylen.toNat = bs.length :=
  Nat.mod_eq_of_lt (Nat.lt_of_le_of_lt h (by decide))

/-- The Key operand after a LOAD of KEY is what was loaded. -/
theorem withKey_keyArg (h : bs.length ≤ 32) : (s.withKey bs).keyArg = bs := by
  rw [State.keyArg, withKey_keylen s h]
  exact (slice_overwrite s.key bs le_rfl h).trans List.take_length

theorem withData_dlen (h : bs.length < 2 ^ 32) : (s.withData bs).dlen.toNat = bs.length := Nat.mod_eq_of_lt h

theorem withData_dinByte (hfit : bs.length ≤ s.maxLen) {j : Nat} (hj : j < bs.length) :
    (s.withData bs).dinByte j = bs.getD j 0 := by
  calc (s.withData bs).dinByte j
      = if 0 ≤ j ∧ j < 0 + (bs.take s.maxLen).length then (bs.take s.maxLen).getD (j - 0) 0 else s.dinByte j :=
        dinByte_writeSeq s 0 (bs.take s.maxLen) j
    _ = bs.getD j 0 := by rw [List.take_of_length_le hfit, if_pos (by omega), Nat.sub_zero]

end

/-! ### Buffers read (30_encoding.md R76) -/

theorem readBytes_eq_map {s : State} {b : Item} {n : Nat} {f : Nat → Byte}
    (h : ∀ j, j < n → s.bufferByte b j = some (f j)) : s.readBytes b n = (List.range n).map f := by
  rw [State.readBytes, ← List.filterMap_eq_map]
  exact List.filterMap_congr fun j hj => h j (List.mem_range.mp hj)

theorem readBytes_res (s : State) : s.readBytes .res 16 = s.res.toList := by
  rw [readBytes_eq_map (f := fun j => s.res.toList.getD j 0)]
  · exact List.ext_getElem (by simp) fun j hj hj' => by simp at hj; simp [hj]
  · intro j hj
    simp [State.bufferByte, hj]

theorem readBytes_dout {s : State} {n : Nat} (h : n ≤ s.maxLen) : s.readBytes .dout n = (List.range n).map s.doutByte :=
  readBytes_eq_map fun _ hj => if_pos (Nat.lt_of_lt_of_le hj h)

/-- CTRCRYPT when its tests pass, and `READ DOUT, OLEN` after it: what it leaves of the registers that DECRYPT_PWTEXT set,
and the bytes read. -/
theorem exec_ctrcrypt_read {s : State} (hpass : modeError false s = none) :
    ∃ t, exec .ctrcrypt s = .next t ∧ t.status = 0 ∧ t.keyArg = s.keyArg ∧ t.xkeyArg = s.xkeyArg ∧ t.res = s.res ∧
      t.ctr = inc128^[chunks s.dlen.toNat] s.ctr ∧ (t.readBytes .dout t.olen.toNat).length = s.dlen.toNat ∧
      ∀ j, j < s.dlen.toNat → (t.readBytes .dout t.olen.toNat).getD j 0 =
        s.dinByte j ^^^ (encrypt (inc128^[j / 16] s.ctr) (keyExpand s.keyArg)).toList.getD (j % 16) 0 := by
  obtain ⟨d, t, hexec, ht, hbyte⟩ := execCtrcrypt_next hpass
  have hread : t.readBytes .dout t.olen.toNat = (List.range s.dlen.toNat).map t.doutByte := by
    rw [ht]
    exact readBytes_dout (dlen_le_of_modeError hpass)
  refine ⟨t, hexec, by rw [ht], by rw [ht]; rfl, by rw [ht]; rfl, by rw [ht], by rw [ht], ?_, fun j hj => ?_⟩
  · rw [hread, List.length_map, List.length_range]
  · have hget : (t.readBytes .dout t.olen.toNat).getD j 0 = t.doutByte j := by rw [hread]; simp [hj]
    rw [hget, hbyte, if_pos hj, getD_toList _ (Nat.mod_lt j (by decide))]
    rfl

/-! ### The procedure's two kinds of step -/

theorem thenHost_of_next {es : List HostEvent} {s t : State} (h : performAll es s = .next t) (k : State → PwOutcome) :
    thenHost es s k = k t := by
  simp only [thenHost, h]

@[simp] theorem ofCode_code (e : Err) : Err.ofCode e.code = some e := by cases e <;> rfl

section
variable {i : Instr} {s t : State} (h : exec i s = .next t) (k : State → PwOutcome)
include h

/-- The line CMD executes its command. -/
theorem performAll_cmd_of_next : performAll (HostLine.cmd i).expand s = .next t := by
  simp only [HostLine.expand, performAll, perform, Item.id, hostWriteReg_cmd, issue, decode_encode, h]

theorem thenCommand_of_success (h0 : t.status = 0) : thenCommand i s k = k t := by
  rw [thenCommand, thenHost_of_next (performAll_cmd_of_next h), h0]
  rfl

theorem thenCommand_of_error {e : Err} (he : t.status = e.code) : thenCommand i s k = .error e t := by
  rw [thenCommand, thenHost_of_next (performAll_cmd_of_next h), he, ofCode_code]

end

/-! ### The derivation (R205) -/

/-- `s` after a success of KEYEXPAND on the Key `raw`. -/
def State.withExpansion (s : State) (raw : List Byte) : State :=
  { s with
    xkey := overwrite s.xkey 0 (keyExpand raw)
    xklen := BitVec.ofNat 8 (keyExpand raw).length
    status := 0 }

/-- `s` after a success of BLKENC with the block `raw[0 +: 16]` under the expansion of `raw`. -/
def State.withSelfEncryption (s : State) (raw : List Byte) : State :=
  { s with res := encrypt (zpad16 (slice raw 0 16)) (keyExpand raw), status := 0 }

/-- The state in which the derivation issues BLKENC: KEY and XKEY hold the raw key material and its expansion, BLK the
first 16 bytes. -/
def State.withRawKey (s : State) (raw : List Byte) : State :=
  ((s.withKey raw).withExpansion raw).withBlk (slice raw 0 16)

section
variable (s : State) {raw : List Byte} (hraw : raw.length = 16 ∨ raw.length = 24 ∨ raw.length = 32)
include hraw

theorem exec_keyexpand_withKey : exec .keyexpand (s.withKey raw) = .next ((s.withKey raw).withExpansion raw) := by
  have hle : raw.length ≤ 32 := by omega
  rcases execKeyexpand_cases (s.withKey raw) with ⟨hbad, -⟩ | ⟨-, hnext⟩
  · exact absurd hbad (by rw [withKey_keylen s hle, legalKeyLen_iff.mpr hraw]; decide)
  · rw [withKey_keyArg s hle] at hnext
    exact hnext

theorem withRawKey_xklen : (s.withRawKey raw).xklen.toNat = xlen raw.length := by
  refine (congrArg (· % 2 ^ 8) (length_keyExpand hraw)).trans (Nat.mod_eq_of_lt ?_)
  unfold xlen
  omega

/-- The ExpandedKey operand of the derivation's BLKENC. -/
theorem withRawKey_xkeyArg : (s.withRawKey raw).xkeyArg = keyExpand raw := by
  have hlen := length_keyExpand hraw
  have hfit : (keyExpand raw).length ≤ 240 := by unfold xlen at hlen; omega
  rw [State.xkeyArg, withRawKey_xklen s hraw, ← hlen]
  exact (slice_overwrite s.xkey (keyExpand raw) le_rfl hfit).trans List.take_length

theorem exec_blkenc_withRawKey :
    exec .blkenc (s.withRawKey raw) = .next ((s.withRawKey raw).withSelfEncryption raw) := by
  have hpass : blockError (s.withRawKey raw) = none :=
    blockError_eq_none (by rw [withRawKey_xklen s hraw]; unfold xlen; omega) rfl
  rw [execBlkenc_of_ok hpass, withRawKey_xkeyArg s hraw]
  rfl

end

/-! ### DECRYPT_PWTEXT up to its CTRCRYPT (R207) -/

/-- The state in which DECRYPT_PWTEXT issues its CTRCRYPT: the effective key in KEY, the derivation's results in XKEY and
RES, the start value in CTR, the ciphertext in DIN. -/
def State.withPwText (s : State) (payload pw : List Byte) (ks : Nat) : State :=
  State.withData
    { ((s.withRawKey (rawKey pw ks)).withSelfEncryption (rawKey pw ks)).withKey (effectiveKey pw ks) with
      ctr := zpad16 (counterStart payload) }
    (cipherText payload)

section
variable (s : State) {payload : List Byte} (pw : List Byte) (ks : Nat)

theorem withPwText_tile_res : tile (s.withPwText payload pw ks).res.toList ks = effectiveKey pw ks := rfl

theorem withPwText_dlen (hlen : payload.length - 8 < 2 ^ 32) :
    (s.withPwText payload pw ks).dlen.toNat = payload.length - 8 :=
  (withData_dlen _ (by rwa [length_cipherText])).trans (length_cipherText payload)

theorem withPwText_dinByte (hfit : payload.length - 8 ≤ s.maxLen) {j : Nat} (hj : j < payload.length - 8) :
    (s.withPwText payload pw ks).dinByte j = payload.getD (8 + j) 0 :=
  (withData_dinByte _ (by rw [length_cipherText]; exact hfit) (by rwa [length_cipherText])).trans (getD_cipherText hj)

end

section
variable (s : State) {payload : List Byte} (pw : List Byte) {ks : Nat} (hks : ks = 16 ∨ ks = 24 ∨ ks = 32)
include hks

/-- The effective key fits KEY, and is a legal Key (R205; 90_conflicts.md C4). -/
theorem legal_effectiveKey : (effectiveKey pw ks).length ≤ 32 ∧ legalKeyLen (effectiveKey pw ks).length = true := by
  rw [length_effectiveKey]
  rcases hks with rfl | rfl | rfl <;> decide

theorem withPwText_keyArg : (s.withPwText payload pw ks).keyArg = effectiveKey pw ks :=
  withKey_keyArg ((s.withRawKey (rawKey pw ks)).withSelfEncryption (rawKey pw ks)) (legal_effectiveKey pw hks).1

theorem withPwText_keylen_legal : legalKeyLen (s.withPwText payload pw ks).keylen.toNat = true := by
  obtain ⟨hfit, hlegal⟩ := legal_effectiveKey pw hks
  have hlen : (s.withPwText payload pw ks).keylen.toNat = (effectiveKey pw ks).length :=
    withKey_keylen ((s.withRawKey (rawKey pw ks)).withSelfEncryption (rawKey pw ks)) hfit
  rw [hlen, hlegal]

theorem withPwText_xkeyArg : (s.withPwText payload pw ks).xkeyArg = keyExpand (rawKey pw ks) :=
  withRawKey_xkeyArg s (by rwa [length_rawKey])

/-- With the host's checks passed and a length that DLEN can hold, every action and both commands before CTRCRYPT
succeed. -/
theorem decryptPwText_eq_ctrcrypt (h8 : 8 ≤ payload.length) (hlen : payload.length - 8 < 2 ^ 32) :
    decryptPwText (some payload) pw ks s = thenCommand .ctrcrypt (s.withPwText payload pw ks) fun t =>
      .plaintext (t.readBytes .dout t.olen.toNat) t := by
  have hraw : (rawKey pw ks).length = 16 ∨ (rawKey pw ks).length = 24 ∨ (rawKey pw ks).length = 32 := by
    rwa [length_rawKey]
  have hblk : (slice (rawKey pw ks) 0 16).length = 16 := by rw [length_slice]; omega
  have hct : (cipherText payload).length < 2 ^ 32 := by rwa [length_cipherText]
  have hE : tile (((s.withRawKey (rawKey pw ks)).withSelfEncryption (rawKey pw ks)).readBytes .res 16) ks =
      effectiveKey pw ks := by rw [readBytes_res]; rfl
  have hload : performAll (HostLine.load .blk (slice (rawKey pw ks) 0 16)).expand
      ((s.withKey (rawKey pw ks)).withExpansion (rawKey pw ks)) = .next (s.withRawKey (rawKey pw ks)) :=
    performAll_load_blk _ hblk
  simp only [decryptPwText, legalKeyLen_iff.mpr hks, Bool.true_eq_false, if_false, if_neg (Nat.not_lt.mpr h8)]
  rw [thenHost_of_next (performAll_load_key s (by omega)), thenCommand_of_success (exec_keyexpand_withKey s hraw) _ rfl,
    thenHost_of_next hload, thenCommand_of_success (exec_blkenc_withRawKey s hraw) _ rfl, hE,
    thenHost_of_next (performAll_load_key _ (legal_effectiveKey pw hks).1),
    thenHost_of_next (performAll_load_ctr _ (length_counterStart h8)), thenHost_of_next (performAll_loadData _ hct)]
  rfl

end

/-! ### The outcomes of its CTRCRYPT -/

/-- Settles O56: DLEN is above MAXLEN, which CTRCRYPT tests after the legal key. -/
theorem passwordTextTooLong : Obligations.PasswordTextTooLong := by
  intro s payload pw ks hks hlong hlen
  have hdlen := withPwText_dlen s pw ks hlen
  have herr : modeError false (s.withPwText payload pw ks) = some .dataTooLong := by
    rcases modeError_cases false (s.withPwText payload pw ks) with
      ⟨hbad, -⟩ | ⟨-, ⟨hiv, -⟩, -⟩ | ⟨-, -, -, he⟩ | ⟨-, -, hfit, -⟩
    · exact absurd (withPwText_keylen_legal s pw hks) (by rw [hbad]; decide)
    · cases hiv
    · exact he
    · rw [hdlen] at hfit
      exact absurd hlong (Nat.not_lt.mpr hfit)
  have hexec := exec_eq_raise_of_modeError (.inr (.inr rfl)) herr
  rw [decryptPwText_eq_ctrcrypt s pw hks (by omega) hlen]
  exact ⟨_, thenCommand_of_error hexec _ rfl, rfl, rfl⟩

/-- Settles O55: the keystream is that of the effective key and the start value, and CTRCRYPT writes neither KEY, XKEY nor
RES. -/
theorem passwordTextDecrypts : Obligations.PasswordTextDecrypts := by
  intro s payload pw ks hks h8 hfit
  obtain ⟨-, -, hmax⟩ := maxLen_legal s
  have hlen : payload.length - 8 < 2 ^ 32 := by omega
  have hdlen := withPwText_dlen s pw ks hlen
  have hpass : modeError false (s.withPwText payload pw ks) = none :=
    modeError_eq_none_iff.mpr ⟨withPwText_keylen_legal s pw hks, by simp, hdlen.trans_le hfit⟩
  have hkey := withPwText_keyArg s (payload := payload) pw hks
  obtain ⟨t, hexec, hstatus, htkey, htxkey, htres, htctr, hout, hbyte⟩ := exec_ctrcrypt_read hpass
  rw [hdlen] at htctr hout hbyte
  refine ⟨_, t, (decryptPwText_eq_ctrcrypt s pw hks h8 hlen).trans (thenCommand_of_success hexec _ hstatus), hout,
    fun j hj => ?_, htkey.trans hkey, htxkey.trans (withPwText_xkeyArg s pw hks), ?_, htctr⟩
  · rw [hbyte j hj, withPwText_dinByte s pw ks hfit hj, hkey]
    rfl
  · rw [htres, withPwText_tile_res]

end Sys2Proof.Machine
end

section
/-! Errors and their order (60_exceptions.md R214, R216): the error a command raises is the first of its listed tests that
fails, so that it is a function of the tests' outcomes, which no failed command changes. -/

namespace Sys2Proof.Machine

/-- The tests a block command makes are those R214 lists for it, in their order. -/
theorem blockError_eq_firstError {i : Instr} (hi : i = .blkenc ∨ i = .blkdec) (s : State) :
    blockError s = firstError (tests s i) := by
  rcases hi with rfl | rfl <;> simp [blockError, tests, firstError]

/-- A command raises the error of its first failing test, or succeeds because none fails (60_exceptions.md R214). -/
theorem exec_firstError_cases (i : Instr) (s : State) :
    (∃ e, firstError (tests s i) = some e ∧ exec i s = s.raise e) ∨
    (firstError (tests s i) = none ∧ ∃ t, exec i s = .next t ∧ t.status = 0) := by
  cases i with
  | keyexpand =>
    rcases execKeyexpand_cases s with ⟨hk, h⟩ | ⟨hk, h⟩
    · exact .inl ⟨_, by simp [tests, firstError, hk], h⟩
    · exact .inr ⟨by simp [tests, firstError, hk], _, h, rfl⟩
  | blkenc =>
    rw [← blockError_eq_firstError (.inl rfl)]
    rcases execBlkenc_cases s with ⟨e, he, h⟩ | ⟨hok, h⟩
    · exact .inl ⟨e, he, h⟩
    · exact .inr ⟨hok, _, h, rfl⟩
  | blkdec =>
    rw [← blockError_eq_firstError (.inr rfl)]
    rcases execBlkdec_cases s with ⟨e, he, h⟩ | ⟨hok, h⟩
    · exact .inl ⟨e, he, h⟩
    · exact .inr ⟨hok, _, h, rfl⟩
  | cbcenc =>
    rw [← modeError_eq_firstError (.inl rfl)]
    rcases execCbcenc_cases s with ⟨e, he, h⟩ | ⟨hok, d, h, -⟩
    · exact .inl ⟨e, he, h⟩
    · exact .inr ⟨hok, _, h, rfl⟩
  | cbcdec =>
    rw [← modeError_eq_firstError (.inr (.inl rfl))]
    rcases execCbcdec_cases s with ⟨e, he, h⟩ | ⟨hok, d, h, -⟩
    · exact .inl ⟨e, he, h⟩
    · exact .inr ⟨hok, _, h, rfl⟩
  | ctrcrypt =>
    rw [← modeError_eq_firstError (.inr (.inr rfl))]
    rcases execCtrcrypt_cases s with ⟨e, he, h⟩ | ⟨hok, d, h, -⟩
    · exact .inl ⟨e, he, h⟩
    · exact .inr ⟨hok, _, h, rfl⟩
  | ctrnext => exact .inr ⟨rfl, _, execCtrnext_eq s, rfl⟩

/-- Settles O11: a command raises the error of its first failing test, and a reserved opcode IllegalCommand, code 5. -/
theorem firstFailingTestIsReported : Obligations.FirstFailingTestIsReported := by
  refine ⟨fun i s => ?_, fun op s hres => ⟨_, issue_of_reserved hres s⟩⟩
  rcases exec_firstError_cases i s with ⟨e, he, hraise⟩ | ⟨hnone, hsucceeds⟩
  · rw [he]; exact ⟨_, hraise⟩
  · rw [hnone]; exact hsucceeds

/-- A command whose listed tests fail raises the error of the first that does. -/
theorem exec_eq_raise_of_firstError {i : Instr} {s : State} {e : Err} (h : firstError (tests s i) = some e) :
    exec i s = s.raise e := by
  rcases exec_firstError_cases i s with ⟨e', he', hraise⟩ | ⟨hnone, -⟩
  · cases he'.symm.trans h
    exact hraise
  · cases hnone.symm.trans h

/-- A command that leaves STATUS other than 0 raised the error of its first failing test. -/
theorem firstError_of_status_ne_zero {i : Instr} {s t : State} (h : exec i s = .next t) (hfail : t.status ≠ 0) :
    ∃ e, firstError (tests s i) = some e ∧ t = { s with status := e.code, failures := e :: s.failures } := by
  rcases exec_firstError_cases i s with ⟨e, he, hraise⟩ | ⟨-, u, hu, hzero⟩
  · cases hraise.symm.trans h
    exact ⟨e, he, rfl⟩
  · cases hu.symm.trans h
    exact absurd hzero hfail

/-- No command tests STATUS, and none the model's history (60_exceptions.md R214). -/
@[simp] theorem tests_with_status_failures (s : State) (c : Byte) (f : List Err) (i : Instr) :
    tests { s with status := c, failures := f } i = tests s i := by
  cases i <;> rfl

/-- Settles O12: the error is a function of the tests' outcomes, and a failed command leaves every tested register alone. -/
theorem failedCommandFailsAgain : Obligations.FailedCommandFailsAgain := by
  refine ⟨fun i s t u h hfail htests => ?_, fun i s t h hfail => ?_, fun op s t u hres h => ?_⟩
  · obtain ⟨e, he, ht⟩ := firstError_of_status_ne_zero h hfail
    rw [← htests] at he
    exact ⟨_, exec_eq_raise_of_firstError he, by rw [ht]⟩
  · obtain ⟨e, -, ht⟩ := firstError_of_status_ne_zero h hfail
    rw [ht, tests_with_status_failures]
  · cases (issue_of_reserved hres s).symm.trans h
    exact ⟨_, issue_of_reserved hres u, rfl⟩

end Sys2Proof.Machine
end

section
/-! The model's history of errors (log 4): what a raised error adds to it, and that no success touches it. -/

namespace Sys2Proof.Machine

@[simp] theorem withWritten_failures (s : State) (i : Instr) (t : State) : (s.withWritten i t).failures = s.failures := by
  cases i <;> rfl

/-- Raising an error stores its code in STATUS and puts that same error before the history (60_exceptions.md R212, log 4). -/
theorem raise_history {e : Err} {s t : State} (h : s.raise e = .next t) :
    t.status = e.code ∧ t.failures = e :: s.failures := by
  cases h
  exact ⟨rfl, rfl⟩

/-- A command succeeds and leaves the history alone, or adds to it exactly the error whose code STATUS shows. -/
theorem exec_history {i : Instr} {s t : State} (h : exec i s = .next t) :
    (t.status = 0 ∧ t.failures = s.failures) ∨ ∃ e : Err, t.status = e.code ∧ t.failures = e :: s.failures := by
  rcases exec_writes i s with ⟨e, -, he⟩ | ⟨u, hu, hwritten⟩
  · exact .inr ⟨e, raise_history (he.symm.trans h)⟩
  · cases hu.symm.trans h
    rw [hwritten]
    exact .inl ⟨withWritten_status .., withWritten_failures ..⟩

/-- Settles O14: a legal opcode executes a command, and a reserved one raises IllegalCommand, which the history records. -/
theorem historyRecordsEveryFailure : Obligations.HistoryRecordsEveryFailure := by
  intro op s t h
  rcases issue_cases op s with ⟨i, -, hexec⟩ | ⟨r, -, hraise⟩
  · exact exec_history (hexec.symm.trans h)
  · exact .inr ⟨.illegalCommand, raise_history (hraise.symm.trans h)⟩

end Sys2Proof.Machine
end
